-- ==== Sys2Proof/Word.lean ====
section
/-! DEFINITION. The words of the WRC (R6, R8) and the closed sets of names its commands use: the four slots, the two
movable windows, and the command as it stands on the port (R70). -/

namespace Sys2Proof

/-- A flag byte or one field of a rectangle (R20, R23). -/
abbrev Byte := BitVec 8

/-- One target register, and the command word: `REG_W` is 16 (R6, R70). -/
abbrev Reg16 := BitVec 16

/-- One argument of a command (R70). -/
abbrev Arg32 := BitVec 32

/-- The four window slots (R25): movable window 0, movable window 1, the outside Window, the object Window. -/
inductive Slot where
  | win0
  | win1
  | out
  | obj
  deriving DecidableEq, Repr

/-- The two movable windows, slots 0 and 1: the only ones with a rectangle (R23, R120). -/
inductive Mov where
  | win0
  | win1
  deriving DecidableEq, Repr

/-- What the host presents on the command port: one 16-bit word and four 32-bit arguments (R58, R70). -/
structure Command where
  cmd  : Reg16
  arg0 : Arg32
  arg1 : Arg32
  arg2 : Arg32
  arg3 : Arg32
  deriving DecidableEq, Repr

end Sys2Proof
end

