-- ==== Sys2Proof/Config.lean ====
section
/-! DEFINITION. The parameters of R6, as plain data that a state carries and no step changes, and the one free value of
the model: what the environment writes to `DISPCNT[12:0]` (R37). -/

namespace Sys2Proof

/-- `EDGE_OVF`: what a commit does when an edge sum exceeds 255 (R6, R125). -/
inductive EdgeOvf where
  /-- The commit ends in the model-level fault `EdgeOverflow` (the default of R6). -/
  | fault
  /-- The edge is the low byte of the sum. -/
  | wrap8
  deriving DecidableEq, Repr

/-- The parameters of R6 with `REGION_BASE` of R62. `REG_W`, `N_SLOT` and `N_MOV` have one value each and are in the
types `Reg16`, `Slot` and `Mov`. -/
structure Config where
  /-- Byte address of register index 0, for a platform that byte-addresses the region (R62). -/
  regionBase  : Nat
  /-- Register index of control register A; B is one above it. -/
  winctlBase  : Nat
  /-- Register index of the horizontal extent of slot 0; that of slot 1 is one above it. -/
  winhBase    : Nat
  /-- Register index of the vertical extent of slot 0; that of slot 1 is one above it. -/
  winvBase    : Nat
  /-- Register index of the shared display control register. -/
  dispcntAddr : Nat
  /-- Upper clamp bound for x. -/
  screenW     : Nat
  /-- Upper clamp bound for y. -/
  screenH     : Nat
  edgeOvf     : EdgeOvf
  deriving DecidableEq, Repr

/-- The parameters `State.reset` carries: the values R6 gives (240, 160, `fault`), and for the OPEN addresses the
suggested defaults of 93_implementation_defined.md G1. PRESUMED for the addresses (log entry 2); every statement
quantifies over all parameters. -/
def Config.default : Config where
  regionBase  := 0x04000000
  winctlBase  := 0x24
  winhBase    := 0x20
  winvBase    := 0x22
  dispcntAddr := 0x00
  screenW     := 240
  screenH     := 160
  edgeOvf     := .fault

/-- FREE VALUE (log entry 4): what the environment leaves in `DISPCNT[12:0]` at its `tick`-th turn, where it found
`old`. R37: it "may write `DISPCNT[12:0]` to any value between any two write steps of this block". No body, so nothing
can be proved of it; leaving the bits alone is one of the values it may have. -/
opaque Config.envDraw (tick : Nat) (old : BitVec 13) : BitVec 13

end Sys2Proof
end

