-- ==== Sys2Proof/Syntax.lean ====
section
/-! DEFINITION. The nine commands of the opcode map (R78), one constructor per row of spec/opcode_table.json. -/

namespace Sys2Proof

/-- A command, its fields pulled out of the command word and the arguments (R71 to R77). The types leave no room for a
slot, a background slot or a byte out of range (R72, R73, R75, D6). -/
inductive Instr where
  /-- ENABLE t (R100). -/
  | enable (t : Slot)
  /-- DISABLE t (R101). -/
  | disable (t : Slot)
  /-- SETBLEND t, v (R102). -/
  | setblend (t : Slot) (v : Bool)
  /-- SETOBJ t, v (R103). -/
  | setobj (t : Slot) (v : Bool)
  /-- SETBG t, bg, v (R104). -/
  | setbg (t : Slot) (bg : BitVec 2) (v : Bool)
  /-- RESET t (R105): one Window's flags, not the reset input of R180. -/
  | reset (t : Slot)
  /-- SETPOSU8 m, x, y, w, h (R121). -/
  | setposu8 (m : Mov) (x y w h : Byte)
  /-- SETPOS m, x, y, w, h, each a signed 32-bit integer (R122). -/
  | setpos (m : Mov) (x y w h : Arg32)
  /-- COMMIT (R143). -/
  | commit
  deriving DecidableEq, Repr

end Sys2Proof
end

