-- ==== Sys2Proof/WellFormed.lean ====
section
/-! DEFINITION. The checks of the spec on data from outside: the constraints on the parameters (R7) and the ranges of an
assembler line's operands (R83). An `Instr` itself needs no check: its types admit only what the encoding can hold. -/

namespace Sys2Proof

/-- The seven register indices of R30, in the order of its table. -/
def Config.indices (c : Config) : List Nat :=
  [c.winctlBase, c.winctlBase + 1, c.winhBase, c.winhBase + 1, c.winvBase, c.winvBase + 1, c.dispcntAddr]

/-- R7: both screen bounds fit a byte and the seven register indices are pairwise distinct. -/
def Config.wellFormed (c : Config) : Bool :=
  decide (c.screenW ≤ 255) && decide (c.screenH ≤ 255) && decide c.indices.Nodup

/-- Every value of every field of a command is legal (R72 to R76, R160): the types hold the ranges. -/
def Instr.wellFormed : Instr → Bool
  | .enable _ | .disable _ | .setblend _ _ | .setobj _ _ | .setbg _ _ _ | .reset _ => true
  | .setposu8 _ _ _ _ _ | .setpos _ _ _ _ _ | .commit => true

/-- One line as the assembler reads it (R83): the mnemonic, a target by name, operands as the numbers written. -/
inductive AsmLine where
  | enable (t : Slot)
  | disable (t : Slot)
  | setblend (t : Slot) (v : Int)
  | setobj (t : Slot) (v : Int)
  | setbg (t : Slot) (bg v : Int)
  | reset (t : Slot)
  | setposu8 (t : Slot) (x y w h : Int)
  | setpos (t : Slot) (x y w h : Int)
  | commit
  deriving DecidableEq, Repr

/-- `lo <= v <= hi`. -/
def inRange (lo hi v : Int) : Bool := decide (lo ≤ v) && decide (v ≤ hi)

/-- The slot has a rectangle: SETPOSU8 and SETPOS are written with `win0` or `win1` (R83). -/
def Slot.movable : Slot → Bool
  | .win0 | .win1 => true
  | .out | .obj => false

/-- R83: the ranges outside which the assembler refuses an operand. -/
def AsmLine.wellFormed : AsmLine → Bool
  | .enable _ | .disable _ | .reset _ | .commit => true
  | .setblend _ v | .setobj _ v => inRange 0 1 v
  | .setbg _ bg v => inRange 0 3 bg && inRange 0 1 v
  | .setposu8 t x y w h => t.movable && inRange 0 255 x && inRange 0 255 y && inRange 0 255 w && inRange 0 255 h
  | .setpos t x y w h =>
    t.movable && inRange (-2147483648) 2147483647 x && inRange (-2147483648) 2147483647 y
      && inRange (-2147483648) 2147483647 w && inRange (-2147483648) 2147483647 h

end Sys2Proof
end

