-- ==== Sys2Proof/Decode.lean ====
section
/-! DEFINITION. The command encoding (R70 to R82): slot numbers, the opcode map, the decoder (total, refusing by name),
the encoder, and the reading of the opcode table's words. -/

namespace Sys2Proof

/-- R25: a slot's number. -/
def Slot.id : Slot → Nat
  | .win0 => 0
  | .win1 => 1
  | .out => 2
  | .obj => 3

/-- R25: a movable window's number, which is its slot's. -/
def Mov.id : Mov → Nat
  | .win0 => 0
  | .win1 => 1

/-- R120: movable window `m` is slot `m`. -/
def Mov.slot : Mov → Slot
  | .win0 => .win0
  | .win1 => .win1

/-- R72: the entity a 2-bit target field names. -/
def Slot.ofField (t : BitVec 2) : Slot :=
  match t.toNat with
  | 0 => .win0
  | 1 => .win1
  | 2 => .out
  | _ => .obj

/-- R71: the selector of a position command, bit 8 of its word. -/
def Mov.ofBit (b : Bool) : Mov := if b then .win1 else .win0

/-! The fields of the command word (R71). -/

def opField (w : Reg16) : BitVec 4 := w.extractLsb' 12 4
def tField (w : Reg16) : Slot := Slot.ofField (w.extractLsb' 8 2)
def mField (w : Reg16) : Mov := Mov.ofBit (w.getLsbD 8)
def bgField (w : Reg16) : BitVec 2 := w.extractLsb' 4 2
def vField (w : Reg16) : Bool := w.getLsbD 0

/-- The three causes of an illegal word (R81 (a), (b), (c)). -/
inductive Illegal where
  /-- (a) A reserved `op`. -/
  | reservedOp
  /-- (b) A 1 in a "must be 0" position. -/
  | mustBeZero
  /-- (c) A position command aimed at slot 2 or 3. -/
  | noRectangle
  deriving DecidableEq, Repr

/-- R71: a word with a 1 in any of its "must be 0" positions, the bits of `zeros`, matches no command. -/
def decodeZeros (w zeros : Reg16) (i : Instr) : Except Illegal Instr :=
  if w &&& zeros = 0 then .ok i else .error .mustBeZero

/-- R81 (c): a position command's bit 9 set names slot 2 or 3, which has no rectangle. -/
def decodePos (w : Reg16) (i : Instr) : Except Illegal Instr :=
  if w &&& 0x0CFF = 0 then (if w.getLsbD 9 then .error .noRectangle else .ok i) else .error .mustBeZero

/-- The decoder, by `op` (R78) and the format of the command (R77). -/
def decode (c : Command) : Except Illegal Instr :=
  let w := c.cmd
  match (opField w).toNat with
  | 0x1 => decodeZeros w 0x0CFF (.enable (tField w))
  | 0x2 => decodeZeros w 0x0CFF (.disable (tField w))
  | 0x3 => decodeZeros w 0x0CFE (.setblend (tField w) (vField w))
  | 0x4 => decodeZeros w 0x0CFE (.setobj (tField w) (vField w))
  | 0x5 => decodeZeros w 0x0CCE (.setbg (tField w) (bgField w) (vField w))
  | 0x6 => decodeZeros w 0x0CFF (.reset (tField w))
  | 0x8 => decodePos w (.setposu8 (mField w) (c.arg0.extractLsb' 24 8) (c.arg0.extractLsb' 16 8)
      (c.arg0.extractLsb' 8 8) (c.arg0.extractLsb' 0 8))
  | 0x9 => decodePos w (.setpos (mField w) c.arg0 c.arg1 c.arg2 c.arg3)
  | 0xC => decodeZeros w 0x0FFF .commit
  | _ => .error .reservedOp

/-- R72: a slot as the field `t`, at its place in the word. -/
def Slot.field (t : Slot) : Reg16 := BitVec.ofNat 16 t.id <<< 8

/-- R71: a selector as bit 8 of the word. -/
def Mov.field (m : Mov) : Reg16 := BitVec.ofNat 16 m.id <<< 8

/-- R74: a boolean as the field `v`, 1 for true. -/
def boolField (v : Bool) : Reg16 := if v then 1 else 0

/-- A command with no arguments; the four ports are ignored (R70) and hold zero. -/
def Command.plain (w : Reg16) : Command := ⟨w, 0, 0, 0, 0⟩

/-- The encoder: the command word and arguments of R83's table. -/
def encode : Instr → Command
  | .enable t => .plain (0x1000 ||| t.field)
  | .disable t => .plain (0x2000 ||| t.field)
  | .setblend t v => .plain (0x3000 ||| t.field ||| boolField v)
  | .setobj t v => .plain (0x4000 ||| t.field ||| boolField v)
  | .setbg t bg v => .plain (0x5000 ||| t.field ||| (bg.setWidth 16 <<< 4) ||| boolField v)
  | .reset t => .plain (0x6000 ||| t.field)
  | .setposu8 m x y w h =>
    ⟨0x8000 ||| m.field,
      (x.setWidth 32 <<< 24) ||| (y.setWidth 32 <<< 16) ||| (w.setWidth 32 <<< 8) ||| h.setWidth 32, 0, 0, 0⟩
  | .setpos m x y w h => ⟨0x9000 ||| m.field, x, y, w, h⟩
  | .commit => .plain 0xC000

/-- One row of the opcode map: a word `w` is its command exactly when `w & mask = pattern` (R78). -/
structure OpcodeRow where
  mnemonic : String
  pattern  : Reg16
  mask     : Reg16
  deriving DecidableEq, Repr

/-- The opcode map of R78, row by row. -/
def opcodeTable : List OpcodeRow :=
  [⟨"ENABLE", 0x1000, 0xFCFF⟩, ⟨"DISABLE", 0x2000, 0xFCFF⟩, ⟨"SETBLEND", 0x3000, 0xFCFE⟩,
   ⟨"SETOBJ", 0x4000, 0xFCFE⟩, ⟨"SETBG", 0x5000, 0xFCCE⟩, ⟨"RESET", 0x6000, 0xFCFF⟩,
   ⟨"SETPOSU8", 0x8000, 0xFEFF⟩, ⟨"SETPOS", 0x9000, 0xFEFF⟩, ⟨"COMMIT", 0xC000, 0xFFFF⟩]

/-- The command word belongs to the row (R78). -/
def OpcodeRow.covers (r : OpcodeRow) (w : Reg16) : Bool := w &&& r.mask == r.pattern

/-- The mnemonic of a command, as R78 and the opcode table write it. -/
def Instr.mnemonic : Instr → String
  | .enable _ => "ENABLE"
  | .disable _ => "DISABLE"
  | .setblend _ _ => "SETBLEND"
  | .setobj _ _ => "SETOBJ"
  | .setbg _ _ _ => "SETBG"
  | .reset _ => "RESET"
  | .setposu8 _ _ _ _ _ => "SETPOSU8"
  | .setpos _ _ _ _ _ => "SETPOS"
  | .commit => "COMMIT"

/-- A command laid out as one number: the command word in bits 15..0, the four arguments above it in order. -/
def Command.ofBits (w : Nat) : Command where
  cmd  := BitVec.ofNat 16 w
  arg0 := BitVec.ofNat 32 (w >>> 16)
  arg1 := BitVec.ofNat 32 (w >>> 48)
  arg2 := BitVec.ofNat 32 (w >>> 80)
  arg3 := BitVec.ofNat 32 (w >>> 112)

/-- The instruction the decoder reads from a word of the opcode table, the arguments above its `nbits` bits zero. -/
def decodeTableWord (nbits w : Nat) : Option Instr :=
  match decode (Command.ofBits (w % 2 ^ nbits)) with
  | .ok i => some i
  | .error _ => none

end Sys2Proof
end

