-- ==== Sys2Proof/Machine/State.lean ====
section
/-! DEFINITION. The state of the WRC as plain data (R12, R20 to R41), the outcomes' reasons, and the state after
reset (R38, R39, R181). -/

namespace Sys2Proof.Machine

/-- The rectangle of a movable window: `RX`, `RY`, `RW`, `RH` (R23). -/
structure Rect where
  x : Byte
  y : Byte
  w : Byte
  h : Byte
  deriving DecidableEq, Repr

/-- The response code of the last command, 0 and 1 of R162. -/
inductive Resp where
  | ok
  | illegal
  deriving DecidableEq, Repr

/-- One transaction of the write port: `(wr_addr, wr_mask, wr_data)` (R52). The address is a register index (R50). -/
structure WriteEvent where
  addr : Nat
  mask : Reg16
  data : Reg16
  deriving DecidableEq, Repr

/-- What the host can do to the block (R15): present a command, or assert the reset input. -/
inductive HostMove where
  | command (c : Command)
  | reset
  deriving DecidableEq, Repr

/-- The bytes of the target register space, by byte address (R50, R62): rising addresses, no byte that is zero. -/
abbrev Memory := List Host.Cell

/-- Why a step stops with a fault. -/
inductive Fault where
  /-- `EdgeOverflow(m)` of R164, with the number of the commit step: raised by `commitStep` at step 2, 3, 5 or 6 when
  the edge sum of movable window `m` exceeds 255 and `EDGE_OVF` is `fault`. Safe. -/
  | edgeOverflow (m : Mov) (step : BitVec 4)
  /-- `SEQ` holds 10 to 15, which R26 says is never reached: raised by `commitStep` in states no run from reset
  reaches. Safe. -/
  | illegalSeq (seq : BitVec 4)
  deriving DecidableEq, Repr

/-- Why a step is refused. -/
inductive Refusal where
  /-- An instruction without a meaning; no arm of this model raises it. Safe. -/
  | notModelled (mnemonic : String)
  /-- The parameters break a constraint of R7: raised by `cycle`. Safe. -/
  | badConfig
  /-- A command to a block that was never reset, which has no meaning (R183, U13): raised by `takeMove`. Safe. -/
  | neverReset
  deriving DecidableEq, Repr

/-- The state of the machine. -/
structure State where
  /-- The parameters of R6; no step changes them. -/
  cfg      : Config
  /-- The block has been reset (R183). -/
  wasReset : Bool
  /-- `WB[0]`, the flag byte of movable window 0 (R21). -/
  wb0      : Byte
  /-- `WB[1]`, the flag byte of movable window 1. -/
  wb1      : Byte
  /-- `WB[2]`, the flag byte of the outside Window. -/
  wb2      : Byte
  /-- `WB[3]`, the flag byte of the object Window. -/
  wb3      : Byte
  /-- `RX[0]`, `RY[0]`, `RW[0]`, `RH[0]` (R23). -/
  rect0    : Rect
  /-- `RX[1]`, `RY[1]`, `RW[1]`, `RH[1]`. -/
  rect1    : Rect
  /-- `SEQ`, the sequencer step counter (R26). -/
  seq      : BitVec 4
  /-- `resp`, the response code of the last command (R162). -/
  resp     : Resp
  /-- The target register space, which holds the seven target registers (R30, R50). -/
  mem      : Memory
  /-- The write trace, oldest event first (R57). -/
  trace    : List WriteEvent
  /-- The moves the host has yet to make, the one on the port first (R58). Not the block's state: its input. -/
  host     : List HostMove
  /-- How many turns the environment has had; the model's own counter for the free value of R37. -/
  envTick  : Nat
  deriving DecidableEq, Repr

/-- The nine transactions of the reset's commit, in order (R181). -/
def resetTrace (c : Config) : List WriteEvent :=
  [⟨c.winctlBase, 0x00FF, 0⟩, ⟨c.winhBase, 0xFFFF, 0⟩, ⟨c.winvBase, 0xFFFF, 0⟩, ⟨c.winctlBase, 0xFF00, 0⟩,
   ⟨c.winhBase + 1, 0xFFFF, 0⟩, ⟨c.winvBase + 1, 0xFFFF, 0⟩, ⟨c.winctlBase + 1, 0x00FF, 0⟩,
   ⟨c.winctlBase + 1, 0xFF00, 0⟩, ⟨c.dispcntAddr, 0xE000, 0⟩]

/-- The machine right after reset (R38, R39, R181): cache zero, `SEQ` 0, `resp` OK, every target register zero, the
reset's own nine writes on the trace, nothing on the port. `DISPCNT[12:0]` is zero by choice (log entry 3). -/
def State.reset : State where
  cfg      := Config.default
  wasReset := true
  wb0      := 0
  wb1      := 0
  wb2      := 0
  wb3      := 0
  rect0    := ⟨0, 0, 0, 0⟩
  rect1    := ⟨0, 0, 0, 0⟩
  seq      := 0
  resp     := .ok
  mem      := []
  trace    := resetTrace Config.default
  host     := []
  envTick  := 0

end Sys2Proof.Machine
end

