-- ==== Sys2Proof/Machine/Flags.lean ====
section
/-! DEFINITION. The flag bytes: their bits (R21), `SetBit` (R9), the enable bit and the outputs computed from the flag
bytes and `SEQ` (R27, R28, R144). -/

namespace Sys2Proof.Machine

/-! Bit numbers of a flag byte (R21). -/

def bitEN : Nat := 7
def bitBLD : Nat := 5
def bitOBJ : Nat := 4

/-- `SetBit(b, i, v)` as R9 defines it: `(b & ~(1 << i)) | (v << i)`. -/
def setBit (b : Byte) (i : Nat) (v : Bool) : Byte :=
  (b &&& ~~~((1 : Byte) <<< i)) ||| ((if v then (1 : Byte) else 0) <<< i)

/-- `WB[t]` (R9, R20). -/
def State.wb (s : State) : Slot → Byte
  | .win0 => s.wb0
  | .win1 => s.wb1
  | .out => s.wb2
  | .obj => s.wb3

/-- `EN(s) = WB[s][7]` (R28). -/
def State.en (s : State) (t : Slot) : Bool := (s.wb t).getLsbD bitEN

/-- `en_status[3:0]`, bit `s` being `WB[s][7]` (R27). -/
def State.enStatus (s : State) : BitVec 4 :=
  BitVec.ofBool (s.en .obj) ++ BitVec.ofBool (s.en .out) ++ BitVec.ofBool (s.en .win1) ++ BitVec.ofBool (s.en .win0)

/-- `Summary() = {EN(3), EN(1), EN(0)}`; the outside Window feeds no bit (R144). -/
def State.summary (s : State) : BitVec 3 :=
  BitVec.ofBool (s.en .obj) ++ BitVec.ofBool (s.en .win1) ++ BitVec.ofBool (s.en .win0)

/-- `busy = (SEQ != 0)` (R27). -/
def State.busy (s : State) : Bool := s.seq != 0

/-- `cmd_ready = (SEQ = 0)` (R58). -/
def State.cmdReady (s : State) : Bool := s.seq == 0

/-- `resp` as its 1-bit code (R162). -/
def Resp.code : Resp → BitVec 1
  | .ok => 0
  | .illegal => 1

end Sys2Proof.Machine
end

