-- ==== Sys2Proof/Machine/Operands.lean ====
section
/-! DEFINITION. Operand arithmetic: the clamp and narrowing of SETPOS (R9, R122), the edges of a rectangle (R125), and
where the packer places a field (R54 to R56). -/

namespace Sys2Proof.Machine

/-- `RX[m]`, `RY[m]`, `RW[m]`, `RH[m]` (R9, R23). -/
def State.rect (s : State) : Mov → Rect
  | .win0 => s.rect0
  | .win1 => s.rect1

/-- `clamp(v, lo, hi)` (R9). -/
def clamp (v lo hi : Int) : Int := if v < lo then lo else if hi < v then hi else v

/-- `trunc8(v)` (R9). -/
def trunc8 (v : Arg32) : Byte := v.setWidth 8

/-- R122: a position clamped to `[0, bound]` by a signed 32-bit compare, then cut to a byte. -/
def clampPos (v : Arg32) (bound : Nat) : Byte := trunc8 (BitVec.ofInt 32 (clamp v.toInt 0 bound))

/-- The edge at `pos + size` (R125): exact when it fits a byte; otherwise what `EDGE_OVF` says, `none` being `fault`. -/
def edge (ovf : EdgeOvf) (pos size : Byte) : Option Byte :=
  if pos.toNat + size.toNat ≤ 255 then some (pos + size)
  else
    match ovf with
    | .fault => none
    | .wrap8 => some (pos + size)

/-- `SlotField(s) = (s / 2, (s % 2) * 8)`: which control register, and the bit offset in it (R54). -/
def slotField (t : Slot) : Nat × Nat := (t.id / 2, (t.id % 2) * 8)

/-! Register indices (R30, R54 to R56). -/

def winctlIndex (c : Config) (t : Slot) : Nat := c.winctlBase + (slotField t).1
def winhIndex (c : Config) (m : Mov) : Nat := c.winhBase + m.id
def winvIndex (c : Config) (m : Mov) : Nat := c.winvBase + m.id

/-- `FieldWrite(a, lo, len, v)` as a transaction (R53). -/
def fieldWrite (a lo len : Nat) (v : BitVec len) : WriteEvent where
  addr := a
  mask := BitVec.ofNat 16 (2 ^ len - 1) <<< lo
  data := v.setWidth 16 <<< lo

/-- `MemWrite(a, 2, v)`, the same as `FieldWrite(a, 0, 16, v)` (R9, R53). -/
def memWrite (a : Nat) (v : Reg16) : WriteEvent := fieldWrite a 0 16 v

end Sys2Proof.Machine
end

