-- ==== Sys2Proof/Machine/Ops.lean ====
section
/-! DEFINITION. The named operations on the state: bytes and registers of the target space (R50 to R53, R62), the write
port and its trace (R52, R57), the cache (R9, R20), responses (R162, R163), the reset input (R180) and the environment
(R37). -/

namespace Sys2Proof.Machine

/-- The byte at a byte address; an unlisted byte is zero, as every target register is after reset (R39). -/
def Memory.readByte : Memory → Nat → Byte
  | [], _ => 0
  | (b, v) :: r, a => if b = a then v else Memory.readByte r a

/-- Write one byte, keeping the canonical form: a zero byte is not listed. -/
def Memory.writeByte : Memory → Nat → Byte → Memory
  | [], a, v => if v = 0 then [] else [(a, v)]
  | (b, w) :: r, a, v =>
    if a < b then (if v = 0 then (b, w) :: r else (a, v) :: (b, w) :: r)
    else if a = b then (if v = 0 then r else (a, v) :: r)
    else (b, w) :: Memory.writeByte r a v

/-- The canonical form: addresses strictly rising and no zero byte listed. -/
def Memory.wf : Memory → Bool
  | [] => true
  | (a, v) :: r => v != 0 && r.all (fun c => decide (a < c.1)) && Memory.wf r

/-- Byte address of the low byte of register index `a` (R62). -/
def regAddr (c : Config) (a : Nat) : Nat := c.regionBase + 2 * a

/-- `REG[a]`, the low byte at the lower address (R50, R62). -/
def State.reg (s : State) (a : Nat) : Reg16 :=
  s.mem.readByte (regAddr s.cfg a + 1) ++ s.mem.readByte (regAddr s.cfg a)

/-- `REG[a] <- v`, both bytes in one step. -/
def State.setReg (s : State) (a : Nat) (v : Reg16) : State :=
  let low := s.mem.writeByte (regAddr s.cfg a) (v.extractLsb' 0 8)
  { s with mem := low.writeByte (regAddr s.cfg a + 1) (v.extractLsb' 8 8) }

/-- What a register holds after a masked write (R53): `(REG[a] & ~wr_mask) | (wr_data & wr_mask)`. -/
def WriteEvent.merge (e : WriteEvent) (old : Reg16) : Reg16 := (old &&& ~~~e.mask) ||| (e.data &&& e.mask)

/-- One transaction of the write port: the register merges it (R53) and the trace gains it (R57). -/
def State.busWrite (s : State) (e : WriteEvent) : State :=
  { s.setReg e.addr (e.merge (s.reg e.addr)) with trace := s.trace ++ [e] }

/-- `WB[t] <- v` (R9). -/
def State.setWb (s : State) (t : Slot) (v : Byte) : State :=
  match t with
  | .win0 => { s with wb0 := v }
  | .win1 => { s with wb1 := v }
  | .out => { s with wb2 := v }
  | .obj => { s with wb3 := v }

/-- `RX[m] <- x; RY[m] <- y; RW[m] <- w; RH[m] <- h`. -/
def State.setRect (s : State) (m : Mov) (r : Rect) : State :=
  match m with
  | .win0 => { s with rect0 := r }
  | .win1 => { s with rect1 := r }

/-- `SEQ <- n` (R9). -/
def State.setSeq (s : State) (n : BitVec 4) : State := { s with seq := n }

/-- `respond r` (R9, R162). -/
def State.respond (s : State) (r : Resp) : State := { s with resp := r }

/-- `raise IllegalCommand`: `respond ILLEGAL` with no other effect (R9, R163). The block's only exception; it saves
nothing and transfers nothing (R167). -/
def State.raiseIllegal (s : State) : State := s.respond .illegal

/-- A flag command's whole effect: one bit of one flag byte, then `respond OK` (R100 to R104). -/
def State.setFlag (s : State) (t : Slot) (bit : Nat) (v : Bool) : State :=
  (s.setWb t (setBit (s.wb t) bit v)).respond .ok

/-- The block has taken the move on its port; the host goes on to the next (R58). -/
def State.takeHost (s : State) : State := { s with host := s.host.tail }

/-- Every byte of the cache zero (R180 (1)). -/
def State.clearCache (s : State) : State :=
  { s with wb0 := 0, wb1 := 0, wb2 := 0, wb3 := 0, rect0 := ⟨0, 0, 0, 0⟩, rect1 := ⟨0, 0, 0, 0⟩ }

/-- The reset input (R180): clear the cache and start the nine writes; the ninth sets `resp` and makes the block
ready, as it does for a COMMIT. -/
def State.startReset (s : State) : State := { s.clearCache.setSeq 1 with wasReset := true }

/-- The environment's turn: it may leave any value in `DISPCNT[12:0]`, and changes nothing else (R37). -/
def State.envMove (s : State) : State :=
  let old := s.reg s.cfg.dispcntAddr
  let low := Config.envDraw s.envTick (old.extractLsb' 0 13)
  { s.setReg s.cfg.dispcntAddr (old.extractLsb' 13 3 ++ low) with envTick := s.envTick + 1 }

end Sys2Proof.Machine
end

