-- ==== Sys2Proof/Machine/MovableWindow.lean ====
section
/-! DEFINITION. The two position commands (R121, R122). Each replaces one rectangle of the cache. -/

namespace Sys2Proof.Machine

/-- SETPOSU8 m, x, y, w, h: the rectangle verbatim (R121). -/
def execSetposu8 (m : Mov) (x y w h : Byte) (s : State) : Host.Outcome State Fault Refusal :=
  .next ((s.setRect m ⟨x, y, w, h⟩).respond .ok)

/-- SETPOS m, x, y, w, h: the position clamped to the screen, the size cut to its low byte (R122). -/
def execSetpos (m : Mov) (x y w h : Arg32) (s : State) : Host.Outcome State Fault Refusal :=
  .next ((s.setRect m ⟨clampPos x s.cfg.screenW, clampPos y s.cfg.screenH, trunc8 w, trunc8 h⟩).respond .ok)

end Sys2Proof.Machine
end

