-- ==== Sys2Proof/Machine/WindowFlags.lean ====
section
/-! DEFINITION. The six flag commands (R100 to R106). Each touches one flag byte of the cache and no target register. -/

namespace Sys2Proof.Machine

/-- ENABLE t: `WB[t] <- SetBit(WB[t], 7, 1)` (R100). -/
def execEnable (t : Slot) (s : State) : Host.Outcome State Fault Refusal := .next (s.setFlag t bitEN true)

/-- DISABLE t: `WB[t] <- SetBit(WB[t], 7, 0)` (R101). -/
def execDisable (t : Slot) (s : State) : Host.Outcome State Fault Refusal := .next (s.setFlag t bitEN false)

/-- SETBLEND t, v: `WB[t] <- SetBit(WB[t], 5, v)` (R102). -/
def execSetblend (t : Slot) (v : Bool) (s : State) : Host.Outcome State Fault Refusal := .next (s.setFlag t bitBLD v)

/-- SETOBJ t, v: `WB[t] <- SetBit(WB[t], 4, v)` (R103). -/
def execSetobj (t : Slot) (v : Bool) (s : State) : Host.Outcome State Fault Refusal := .next (s.setFlag t bitOBJ v)

/-- SETBG t, bg, v: `WB[t] <- SetBit(WB[t], bg, v)` (R104). -/
def execSetbg (t : Slot) (bg : BitVec 2) (v : Bool) (s : State) : Host.Outcome State Fault Refusal :=
  .next (s.setFlag t bg.toNat v)

/-- RESET t: `WB[t] <- 0x00`; the rectangle of a movable window is kept (R105). -/
def execReset (t : Slot) (s : State) : Host.Outcome State Fault Refusal := .next ((s.setWb t 0).respond .ok)

end Sys2Proof.Machine
end

