-- ==== Sys2Proof/Machine/Windows.lean ====
section
/-! DEFINITION. COMMIT and the sequencer that performs its nine writes (R85, R107, R124, R125, R143 to R149). -/

namespace Sys2Proof.Machine

/-- COMMIT is taken: `SEQ` goes from 0 to 1 (R147). The nine writes are the next nine steps (`commitStep`), and the
last of them responds. -/
def execCommit (s : State) : Host.Outcome State Fault Refusal := .next (s.setSeq 1)

/-- The kinds of write step (R85). -/
inductive SeqOp where
  /-- The control byte of a slot (R107). -/
  | control (t : Slot)
  /-- The horizontal extent of a movable slot (R124). -/
  | horizontal (m : Mov)
  /-- The vertical extent of a movable slot (R124). -/
  | vertical (m : Mov)
  /-- The enable summary (R145). -/
  | summary
  deriving DecidableEq, Repr

/-- The write step that `SEQ` selects: the table of R85. `none` at 0 (idle) and at 10 to 15 (never reached, R26). -/
def seqOp (seq : BitVec 4) : Option SeqOp :=
  match seq.toNat with
  | 1 => some (.control .win0)
  | 2 => some (.horizontal .win0)
  | 3 => some (.vertical .win0)
  | 4 => some (.control .win1)
  | 5 => some (.horizontal .win1)
  | 6 => some (.vertical .win1)
  | 7 => some (.control .out)
  | 8 => some (.control .obj)
  | 9 => some .summary
  | _ => none

/-- The transaction of an extent step: `{low edge, high edge}` to the register at index `a` (R33, R34, R124), or
`EdgeOverflow(m)` with the step's number where the edge sum overflows under `fault` (R125, R164). -/
def extentEvent (s : State) (m : Mov) (a : Nat) (pos size : Byte) : Except Fault WriteEvent :=
  match edge s.cfg.edgeOvf pos size with
  | some e => .ok (memWrite a (pos ++ e))
  | none => .error (.edgeOverflow m s.seq)

/-- The transaction of a write step (R107, R124, R145). -/
def stepEvent (s : State) : SeqOp → Except Fault WriteEvent
  | .control t => .ok (fieldWrite (winctlIndex s.cfg t) (slotField t).2 8 (s.wb t))
  | .horizontal m => extentEvent s m (winhIndex s.cfg m) (s.rect m).x (s.rect m).w
  | .vertical m => extentEvent s m (winvIndex s.cfg m) (s.rect m).y (s.rect m).h
  | .summary => .ok (fieldWrite s.cfg.dispcntAddr 13 3 s.summary)

/-- After the write of step `n`: `SEQ <- n + 1`, or `SEQ <- 0` and the response after step 9 (R147). -/
def State.advance (s : State) : State := if s.seq = 9 then (s.setSeq 0).respond .ok else s.setSeq (s.seq + 1)

/-- One write step of a commit (R143, R147). -/
def commitStep (s : State) : Host.Outcome State Fault Refusal :=
  match seqOp s.seq with
  | none => .fault (.illegalSeq s.seq)
  | some op =>
    match stepEvent s op with
    | .error f => .fault f
    | .ok e => .next (s.busWrite e).advance

end Sys2Proof.Machine
end

