-- ==== Sys2Proof/Machine/Dispatch.lean ====
section
/-! DEFINITION. One arm per command. -/

namespace Sys2Proof.Machine

def exec (i : Instr) (s : State) : Host.Outcome State Fault Refusal :=
  match i with
  | .enable t => Sys2Proof.Machine.execEnable t s
  | .disable t => Sys2Proof.Machine.execDisable t s
  | .setblend t v => Sys2Proof.Machine.execSetblend t v s
  | .setobj t v => Sys2Proof.Machine.execSetobj t v s
  | .setbg t bg v => Sys2Proof.Machine.execSetbg t bg v s
  | .reset t => Sys2Proof.Machine.execReset t s
  | .setposu8 m x y w h => Sys2Proof.Machine.execSetposu8 m x y w h s
  | .setpos m x y w h => Sys2Proof.Machine.execSetpos m x y w h s
  | .commit => Sys2Proof.Machine.execCommit s

end Sys2Proof.Machine
end

