-- ==== Sys2Proof/Machine/Port.lean ====
section
/-! DEFINITION. The command port and one turn of the machine (R11, R15, R58, R163, R180, R183). -/

namespace Sys2Proof.Machine

/-- The command on the port, taken off it: it runs if its word is legal, and is `IllegalCommand` if not (R58, R163). -/
def takeCommand (c : Command) (s : State) : Host.Outcome State Fault Refusal :=
  match decode c with
  | .ok i => exec i s.takeHost
  | .error _ => .next s.takeHost.raiseIllegal

/-- The idle block takes what stands on its port: nothing, the reset input (R180), or a command. A command to a block
that was never reset has no meaning (R183). -/
def takeMove (s : State) : Host.Outcome State Fault Refusal :=
  match s.host with
  | [] => .next s
  | .reset :: _ => .next s.takeHost.startReset
  | .command c :: _ => if s.wasReset then takeCommand c s else .refused .neverReset

/-- The block's part of a turn: idle, it takes a move; busy, it performs the write step of `SEQ` and leaves the port
alone (R58, R147). -/
def blockStep (s : State) : Host.Outcome State Fault Refusal := if s.cmdReady then takeMove s else commitStep s

/-- One turn: the environment may change `DISPCNT[12:0]` (R37), then the block steps. Parameters that break R7 are
refused. -/
def cycle (s : State) : Host.Outcome State Fault Refusal :=
  if s.cfg.wellFormed then blockStep s.envMove else .refused .badConfig

/-- A command put on the port ahead of whatever the host has yet to do, with the block idle and reset, so that the very
next turn takes it. -/
def present (s : State) (c : Command) : State :=
  { s with host := .command c :: s.host, seq := 0, wasReset := true }

/-- A word of the opcode table on the port, the arguments above its `nbits` bits zero. -/
def presentWord (s : State) (nbits w : Nat) : State := present s (Command.ofBits (w % 2 ^ nbits))

end Sys2Proof.Machine
end

