-- ==== Sys2Proof/Machine/Step.lean ====
section
/-! DEFINITION. One step of the machine, and the placing of a command where the next step takes it. -/

namespace Sys2Proof.Machine

/-- One step: one turn of the environment and the block (R11). -/
def step (s : State) : Host.Outcome State Fault Refusal := cycle s

/-- The state with a word of the opcode table on its command port. -/
def State.withFetchWord (s : State) (nbits w : Nat) : State := presentWord s nbits w

end Sys2Proof.Machine
end

