-- ==== Sys2Proof/Machine/Assembler.lean ====
section
/-! DEFINITION. The assembler syntax (R83, R84): one command per line, as text, to the command word and arguments. The
block itself sees commands only; this file gives the written form its meaning. -/

namespace Sys2Proof.Machine

/-- A line within its ranges as the command it stands for; a line out of range is refused, never truncated (R83). -/
def assemble (l : AsmLine) : Option Command :=
  if l.wellFormed then
    some (encode (match l with
      | .enable t => .enable t
      | .disable t => .disable t
      | .setblend t v => .setblend t (v == 1)
      | .setobj t v => .setobj t (v == 1)
      | .setbg t bg v => .setbg t (BitVec.ofInt 2 bg) (v == 1)
      | .reset t => .reset t
      | .setposu8 t x y w h =>
        .setposu8 (Mov.ofBit (t == .win1)) (BitVec.ofInt 8 x) (BitVec.ofInt 8 y) (BitVec.ofInt 8 w) (BitVec.ofInt 8 h)
      | .setpos t x y w h =>
        .setpos (Mov.ofBit (t == .win1)) (BitVec.ofInt 32 x) (BitVec.ofInt 32 y) (BitVec.ofInt 32 w) (BitVec.ofInt 32 h)
      | .commit => .commit))
  else none

def isSpace (c : Char) : Bool := c == ' ' || c == '\t'

/-- The text without the spaces around it. -/
def trim (l : List Char) : List Char := ((l.dropWhile isSpace).reverse.dropWhile isSpace).reverse

/-- The pieces between commas; a text without a comma is one piece. -/
def splitCommas : List Char → List (List Char)
  | [] => [[]]
  | c :: r =>
    if c = ',' then [] :: splitCommas r
    else
      match splitCommas r with
      | [] => [[c]]
      | p :: ps => (c :: p) :: ps

/-- A decimal digit's value. -/
def decDigit (c : Char) : Option Nat := if '0' ≤ c ∧ c ≤ '9' then some (c.toNat - 48) else none

/-- A hexadecimal digit's value, in either case. -/
def hexDigit (c : Char) : Option Nat :=
  if 'a' ≤ c ∧ c ≤ 'f' then some (c.toNat - 87)
  else if 'A' ≤ c ∧ c ≤ 'F' then some (c.toNat - 55)
  else decDigit c

/-- Digits in a base, most significant first, after those read into `acc`. -/
def readDigits (base : Nat) (digit : Char → Option Nat) : Nat → List Char → Option Nat
  | acc, [] => some acc
  | acc, c :: r =>
    match digit c with
    | some d => readDigits base digit (base * acc + d) r
    | none => none

/-- A number without a sign: at least one digit. -/
def readNat (base : Nat) (digit : Char → Option Nat) (l : List Char) : Option Int :=
  if l.isEmpty then none else (readDigits base digit 0 l).map Int.ofNat

/-- An operand: decimal with an optional minus, or hexadecimal with the prefix `0x` (R83). Leading zeros and `-0` are
accepted and a plus sign is not: DESIGN CHOICE (log entry 17). -/
def readNumber (l : List Char) : Option Int :=
  match l with
  | '0' :: 'x' :: r => readNat 16 hexDigit r
  | '-' :: r => (readNat 10 decDigit r).map (fun n => -n)
  | _ => readNat 10 decDigit l

/-- A target's assembler name (R72). -/
def readTarget (l : List Char) : Option Slot :=
  if l = "win0".toList then some .win0
  else if l = "win1".toList then some .win1
  else if l = "out".toList then some .out
  else if l = "obj".toList then some .obj
  else none

/-- Every operand of a list as a number. -/
def readNumbers : List (List Char) → Option (List Int)
  | [] => some []
  | p :: ps =>
    match readNumber p, readNumbers ps with
    | some n, some ns => some (n :: ns)
    | _, _ => none

/-- The line of a mnemonic, its target and its numbers, where their count is the mnemonic's own (R83). -/
def lineOf (mnemonic : List Char) (t : Slot) (ns : List Int) : Option AsmLine :=
  if mnemonic = "ENABLE".toList then (if ns = [] then some (.enable t) else none)
  else if mnemonic = "DISABLE".toList then (if ns = [] then some (.disable t) else none)
  else if mnemonic = "RESET".toList then (if ns = [] then some (.reset t) else none)
  else if mnemonic = "SETBLEND".toList then (match ns with | [v] => some (.setblend t v) | _ => none)
  else if mnemonic = "SETOBJ".toList then (match ns with | [v] => some (.setobj t v) | _ => none)
  else if mnemonic = "SETBG".toList then (match ns with | [bg, v] => some (.setbg t bg v) | _ => none)
  else if mnemonic = "SETPOSU8".toList then (match ns with | [x, y, w, h] => some (.setposu8 t x y w h) | _ => none)
  else if mnemonic = "SETPOS".toList then (match ns with | [x, y, w, h] => some (.setpos t x y w h) | _ => none)
  else none

/-- A line's operands, read against its mnemonic. -/
def readOperands (mnemonic operands : List Char) : Option AsmLine :=
  if mnemonic = "COMMIT".toList then (if operands.isEmpty then some .commit else none)
  else
    match (splitCommas operands).map trim with
    | [] => none
    | t :: ps =>
      match readTarget t, readNumbers ps with
      | some slot, some ns => lineOf mnemonic slot ns
      | _, _ => none

/-- What a line of text says (R83): `none` for one the assembler refuses. A line that is blank or holds only a comment is
accepted as a line with no command, `some none`: DESIGN CHOICE (log entry 17). -/
def readLine (l : List Char) : Option (Option AsmLine) :=
  let text := trim (l.takeWhile (· != ';'))
  if text.isEmpty then some none
  else (readOperands (text.takeWhile (!isSpace ·)) (trim (text.dropWhile (!isSpace ·)))).map some

/-- A line of text to its command: `some none` where there is none, `none` where the assembler refuses the line. -/
def assembleText (l : List Char) : Option (Option Command) :=
  match readLine l with
  | none => none
  | some none => some none
  | some (some line) => (assemble line).map some

end Sys2Proof.Machine
end

