-- ==== Sys2Proof/Safety.lean ====
section
/-! DEFINITION. The words claims are stated in: runs and their end, the host's contract, the invariants of the machine,
the registers by the names of R30, and what a command leaves unchanged. -/

namespace Sys2Proof

/-- The command is one of the six flag commands and acts on slot `t` (R106). -/
def Instr.flagTarget : Instr → Option Slot
  | .enable t | .disable t | .setblend t _ | .setobj t _ | .setbg t _ _ | .reset t => some t
  | .setposu8 _ _ _ _ _ | .setpos _ _ _ _ _ | .commit => none

/-- The command is one of the two position commands and acts on movable window `m` (R120). -/
def Instr.posTarget : Instr → Option Mov
  | .setposu8 m _ _ _ _ | .setpos m _ _ _ _ => some m
  | .enable _ | .disable _ | .setblend _ _ | .setobj _ _ | .setbg _ _ _ | .reset _ | .commit => none

/-- The one bit of `WB[t]` a flag command other than RESET touches (R106), by R21. -/
def Instr.flagBit : Instr → Option Nat
  | .enable _ | .disable _ => some 7
  | .setblend _ _ => some 5
  | .setobj _ _ => some 4
  | .setbg _ bg _ => some bg.toNat
  | .reset _ | .setposu8 _ _ _ _ _ | .setpos _ _ _ _ _ | .commit => none

/-- What ENABLE, DISABLE and RESET make of the enabled state of slot `t`; every other command leaves it (R28). -/
def Instr.enables (i : Instr) (t : Slot) (before : Bool) : Bool :=
  match i with
  | .enable t' => if t' = t then true else before
  | .disable t' | .reset t' => if t' = t then false else before
  | .setblend _ _ | .setobj _ _ | .setbg _ _ _ | .setposu8 _ _ _ _ _ | .setpos _ _ _ _ _ | .commit => before

/-- A byte address outside the seven target registers. -/
def Config.foreign (c : Config) (a : Nat) : Prop := ∀ r ∈ c.indices, a ≠ Machine.regAddr c r ∧ a ≠ Machine.regAddr c r + 1

end Sys2Proof

namespace Sys2Proof.Machine

/-- `k` steps, stopping at the first fault or refusal. -/
def stepN : Nat → State → Host.Outcome State Fault Refusal
  | 0, s => .next s
  | k + 1, s =>
    match step s with
    | .next u => stepN k u
    | .fault f => .fault f
    | .refused r => .refused r

/-- Commands run one after another, each to completion of its own step. -/
def execAll : List Instr → State → Host.Outcome State Fault Refusal
  | [], s => .next s
  | i :: is, s =>
    match exec i s with
    | .next u => execAll is u
    | .fault f => .fault f
    | .refused r => .refused r

/-- R14: the run has ended: the host has nothing left to do and the block is idle. -/
def State.final (s : State) : Prop := s.host = [] ∧ s.seq = 0

/-- R24, R186: both edges of a rectangle fit a byte. -/
def Rect.fits (r : Rect) : Prop := r.x.toNat + r.w.toNat ≤ 255 ∧ r.y.toNat + r.h.toNat ≤ 255

/-- A commit of this cache cannot fault (R125): `EDGE_OVF` is `wrap8`, or both rectangles keep the contract of R24. -/
def State.edgesOk (s : State) : Prop := s.cfg.edgeOvf = .wrap8 ∨ ∀ m, (s.rect m).fits

/-- The first overflowing edge in the order of R143 (R166): its movable window and the number of its write step. -/
def State.firstOverflow (s : State) : Option (Mov × Nat) :=
  if 255 < (s.rect .win0).x.toNat + (s.rect .win0).w.toNat then some (.win0, 2)
  else if 255 < (s.rect .win0).y.toNat + (s.rect .win0).h.toNat then some (.win0, 3)
  else if 255 < (s.rect .win1).x.toNat + (s.rect .win1).w.toNat then some (.win1, 5)
  else if 255 < (s.rect .win1).y.toNat + (s.rect .win1).h.toNat then some (.win1, 6)
  else none

/-- The low byte of an edge sum (R125); the sum itself when it fits. -/
def edgeByte (pos size : Byte) : Byte := BitVec.ofNat 8 (pos.toNat + size.toNat)

/-! The seven target registers (R30). -/

def State.winctlA (s : State) : Reg16 := s.reg s.cfg.winctlBase
def State.winctlB (s : State) : Reg16 := s.reg (s.cfg.winctlBase + 1)
def State.winh (s : State) (m : Mov) : Reg16 := s.reg (s.cfg.winhBase + m.id)
def State.winv (s : State) (m : Mov) : Reg16 := s.reg (s.cfg.winvBase + m.id)
def State.dispcnt (s : State) : Reg16 := s.reg s.cfg.dispcntAddr

/-- The invariant of R22 and R26 with the canonical form of memory: bit 6 of every flag byte is 0, `SEQ` is 0 to 9. -/
structure State.Inv (s : State) : Prop where
  mem  : s.mem.wf = true
  seq  : s.seq.toNat ≤ 9
  bit6 : ∀ t, (s.wb t).getLsbD 6 = false

/-- What a register would hold if it had been zero and only the trace had written it (R53, R57). -/
def replay (trace : List WriteEvent) (a : Nat) : Reg16 :=
  trace.foldl (fun old e => if e.addr = a then e.merge old else old) 0

/-- R37, R57: the registers are what the trace makes them, but for `DISPCNT[12:0]`, which are the environment's. -/
def State.traced (s : State) : Prop :=
  s.mem.wf = true ∧
    ∀ a k, k < 16 → (a ≠ s.cfg.dispcntAddr ∨ 13 ≤ k) → (s.reg a).getLsbD k = (replay s.trace a).getLsbD k

/-- The end state of a commit (R149): the six window registers and `DISPCNT[15:13]` are functions of the cache of `c`. -/
structure Published (c u : State) : Prop where
  winctlA : u.winctlA = c.wb .win1 ++ c.wb .win0
  winctlB : u.winctlB = c.wb .obj ++ c.wb .out
  winh    : ∀ m, u.winh m = (c.rect m).x ++ edgeByte (c.rect m).x (c.rect m).w
  winv    : ∀ m, u.winv m = (c.rect m).y ++ edgeByte (c.rect m).y (c.rect m).h
  summary : u.dispcnt.extractLsb' 13 3 =
    BitVec.ofBool (c.en .obj) ++ BitVec.ofBool (c.en .win1) ++ BitVec.ofBool (c.en .win0)

/-- The nine transactions of a commit of the cache of `s`, in order, written out from R143. -/
def commitTrace (s : State) : List WriteEvent :=
  let c := s.cfg
  [⟨c.winctlBase, 0x00FF, (s.wb .win0).setWidth 16⟩,
   ⟨c.winhBase, 0xFFFF, (s.rect .win0).x ++ edgeByte (s.rect .win0).x (s.rect .win0).w⟩,
   ⟨c.winvBase, 0xFFFF, (s.rect .win0).y ++ edgeByte (s.rect .win0).y (s.rect .win0).h⟩,
   ⟨c.winctlBase, 0xFF00, (s.wb .win1) ++ (0 : Byte)⟩,
   ⟨c.winhBase + 1, 0xFFFF, (s.rect .win1).x ++ edgeByte (s.rect .win1).x (s.rect .win1).w⟩,
   ⟨c.winvBase + 1, 0xFFFF, (s.rect .win1).y ++ edgeByte (s.rect .win1).y (s.rect .win1).h⟩,
   ⟨c.winctlBase + 1, 0x00FF, (s.wb .out).setWidth 16⟩,
   ⟨c.winctlBase + 1, 0xFF00, (s.wb .obj) ++ (0 : Byte)⟩,
   ⟨c.dispcntAddr, 0xE000,
     BitVec.ofBool (s.en .obj) ++ BitVec.ofBool (s.en .win1) ++ BitVec.ofBool (s.en .win0) ++ (0 : BitVec 13)⟩]

/-! What is left unchanged. -/

/-- Everything outside the cache and `resp` is unchanged: sequencer, parameters, the host's moves, the environment's
turn, the trace, and every byte of the target register space (R106, R59 (d)). -/
structure KeepsOutside (s u : State) : Prop where
  seq      : u.seq = s.seq
  cfg      : u.cfg = s.cfg
  wasReset : u.wasReset = s.wasReset
  host     : u.host = s.host
  envTick  : u.envTick = s.envTick
  trace    : u.trace = s.trace
  mem      : ∀ a, u.mem.readByte a = s.mem.readByte a

/-- The whole cache is unchanged. -/
structure KeepsCache (s u : State) : Prop where
  wb   : ∀ t, u.wb t = s.wb t
  rect : ∀ m, u.rect m = s.rect m

/-- Two states that differ at most in the target register space and the environment's turn (R51). -/
structure AgreeButMem (s u : State) : Prop where
  cfg      : u.cfg = s.cfg
  wasReset : u.wasReset = s.wasReset
  wb       : ∀ t, u.wb t = s.wb t
  rect     : ∀ m, u.rect m = s.rect m
  seq      : u.seq = s.seq
  resp     : u.resp = s.resp
  trace    : u.trace = s.trace
  host     : u.host = s.host

end Sys2Proof.Machine
end

