-- ==== Sys2Proof/Certificates/Slice0/Obligations.lean ====
section
/-! DEFINITION. The statements for the provers, each from the numbered rules of spec/. -/

open Sys2Proof Sys2Proof.Machine

/-! ## The command encoding -/

/-- R70, R71, R83: decoding a word the encoder wrote gives the command back, for every command, whatever stands on the
argument ports it does not read. -/
def Obligations.DecodeOfEncode : Prop :=
  ∀ (i : Instr) (c : Command), c.cmd = (encode i).cmd →
    (∀ m x y w h, i = .setposu8 m x y w h → c.arg0 = (encode i).arg0) →
    (∀ m x y w h, i = .setpos m x y w h → c.arg0 = x ∧ c.arg1 = y ∧ c.arg2 = w ∧ c.arg3 = h) →
    decode c = .ok i

/-- R71, R79: a legal word is the encoder's word of what it decodes to: no two words mean one command. -/
def Obligations.EncodeOfDecode : Prop :=
  ∀ (c : Command) (i : Instr), decode c = .ok i →
    (encode i).cmd = c.cmd ∧
    (∀ m x y w h, i = .setposu8 m x y w h → (encode i).arg0 = c.arg0) ∧
    (∀ m x y w h, i = .setpos m x y w h → encode i = c)

/-- R78: a word is the command of a row exactly when `(cmd & mask) = match`, by the masks and matches of the table, and
the rows are disjoint. The decoder itself goes by fields (R71). -/
def Obligations.DecodeMatchesOpcodeMap : Prop :=
  (∀ (c : Command) (r : OpcodeRow), r ∈ opcodeTable →
    (c.cmd &&& r.mask = r.pattern ↔ ∃ i, decode c = .ok i ∧ i.mnemonic = r.mnemonic)) ∧
  (∀ (w : Reg16) (r r' : OpcodeRow), r ∈ opcodeTable → r' ∈ opcodeTable →
    w &&& r.mask = r.pattern → w &&& r'.mask = r'.pattern → r = r')

/-- R79: every word matches exactly one row of R78 or is illegal; of the 65536 words 65 are legal: 4
each of ENABLE, DISABLE and RESET, 8 each of SETBLEND and SETOBJ, 32 of SETBG, 2 each of SETPOSU8 and SETPOS, and 1 COMMIT. -/
def Obligations.LegalWordCount : Prop :=
  (Finset.univ.filter fun w : Reg16 => (decode (.plain w)).toOption.isSome).card = 65 ∧
  (∀ p ∈ [("ENABLE", 4), ("DISABLE", 4), ("RESET", 4), ("SETBLEND", 8), ("SETOBJ", 8), ("SETBG", 32), ("SETPOSU8", 2),
      ("SETPOS", 2), ("COMMIT", 1)],
    (Finset.univ.filter fun w : Reg16 => (decode (.plain w)).toOption.map Instr.mnemonic = some p.1).card = p.2) ∧
  ∀ c : Command,
    ((∃ i, decode c = .ok i) ∧ ∃! r, r ∈ opcodeTable ∧ c.cmd &&& r.mask = r.pattern) ∨
    ((∃ e, decode c = .error e) ∧ ∀ r ∈ opcodeTable, c.cmd &&& r.mask ≠ r.pattern)

/-- R71, R81: which words are illegal, by the fields of R71: (a) a reserved `op`; (b) a 1 in a "must be 0" position;
(c) a position command with `t` in {2, 3}. -/
def Obligations.IllegalWords : Prop :=
  ∀ c : Command,
    let op := (c.cmd.extractLsb' 12 4).toNat
    let t := c.cmd.extractLsb' 8 2
    (∃ e, decode c = .error e) ↔
      op ∈ [0x0, 0x7, 0xA, 0xB, 0xD, 0xE, 0xF] ∨
      c.cmd.extractLsb' 10 2 ≠ 0 ∨ c.cmd.extractLsb' 6 2 ≠ 0 ∨ c.cmd.extractLsb' 1 3 ≠ 0 ∨
      (op ≠ 0x5 ∧ c.cmd.extractLsb' 4 2 ≠ 0) ∨
      (op ∉ [0x3, 0x4, 0x5] ∧ c.cmd.extractLsb' 0 1 ≠ 0) ∨
      (op = 0xC ∧ t ≠ 0) ∨
      (op ∈ [0x8, 0x9] ∧ (t = 2 ∨ t = 3))

/-- 95_test_vectors.md 2.1, against R71 and R78: some words decoded as that table has them. -/
def Obligations.DecodeSampleWords : Prop :=
  decode (.plain 0x1300) = .ok (.enable .obj) ∧ decode (.plain 0x2200) = .ok (.disable .out) ∧
  decode (.plain 0x3101) = .ok (.setblend .win1 true) ∧ decode (.plain 0x4300) = .ok (.setobj .obj false) ∧
  decode (.plain 0x5331) = .ok (.setbg .obj 3 true) ∧ decode (.plain 0x6100) = .ok (.reset .win1) ∧
  decode ⟨0x8000, 0x0A146432, 0, 0, 0⟩ = .ok (.setposu8 .win0 10 20 100 50) ∧
  decode ⟨0x9100, 0xFFFFFFFB, 0x12C, 0x32, 0x32⟩ = .ok (.setpos .win1 (-5) 300 50 50) ∧
  decode (.plain 0xC000) = .ok .commit

/-- R83: the assembler's table: the word and arguments of each line in range, and a line out of range refused. -/
def Obligations.AssemblerTable : Prop :=
  ∀ (t : Slot) (v bg x y w h : Int),
    let byte := fun n : Int => 0 ≤ n ∧ n ≤ 255
    let i32 := fun n : Int => -2147483648 ≤ n ∧ n ≤ 2147483647
    let at8 := BitVec.ofNat 16 t.id <<< 8
    assemble (.enable t) = some (.plain (0x1000 ||| at8)) ∧
    assemble (.disable t) = some (.plain (0x2000 ||| at8)) ∧
    assemble (.reset t) = some (.plain (0x6000 ||| at8)) ∧
    assemble .commit = some (.plain 0xC000) ∧
    assemble (.setblend t v) =
      (if 0 ≤ v ∧ v ≤ 1 then some (.plain (0x3000 ||| at8 ||| BitVec.ofInt 16 v)) else none) ∧
    assemble (.setobj t v) =
      (if 0 ≤ v ∧ v ≤ 1 then some (.plain (0x4000 ||| at8 ||| BitVec.ofInt 16 v)) else none) ∧
    assemble (.setbg t bg v) =
      (if (0 ≤ bg ∧ bg ≤ 3) ∧ 0 ≤ v ∧ v ≤ 1 then
        some (.plain (0x5000 ||| at8 ||| (BitVec.ofInt 16 bg <<< 4) ||| BitVec.ofInt 16 v)) else none) ∧
    assemble (.setposu8 t x y w h) =
      (if t.id ≤ 1 ∧ byte x ∧ byte y ∧ byte w ∧ byte h then
        some ⟨0x8000 ||| at8, (BitVec.ofInt 32 x <<< 24) ||| (BitVec.ofInt 32 y <<< 16) ||| (BitVec.ofInt 32 w <<< 8) |||
          BitVec.ofInt 32 h, 0, 0, 0⟩ else none) ∧
    assemble (.setpos t x y w h) =
      (if t.id ≤ 1 ∧ i32 x ∧ i32 y ∧ i32 w ∧ i32 h then
        some ⟨0x9000 ||| at8, BitVec.ofInt 32 x, BitVec.ofInt 32 y, BitVec.ofInt 32 w, BitVec.ofInt 32 h⟩ else none)

/-! ## The flag commands -/

/-- R100: ENABLE t sets bit 7 of `WB[t]` and nothing else of the cache, responds OK; its word is `0x1000 | t << 8`. On
the outside Window it leaves the enable summary alone; on a bit already 1 it changes nothing. -/
def Obligations.EnableResult : Prop :=
  ∀ (t : Slot) (s : State),
    (∀ a0 a1 a2 a3, decode ⟨0x1000 ||| (BitVec.ofNat 16 t.id <<< 8), a0, a1, a2, a3⟩ = .ok (.enable t)) ∧
    ∃ u, exec (.enable t) s = .next u ∧
      (u.wb t).getLsbD 7 = true ∧ (∀ k, k ≠ 7 → (u.wb t).getLsbD k = (s.wb t).getLsbD k) ∧
      (∀ t', t' ≠ t → u.wb t' = s.wb t') ∧ (∀ m, u.rect m = s.rect m) ∧ u.resp = .ok ∧ KeepsOutside s u ∧
      u.enStatus.getLsbD t.id = true ∧ ((s.wb t).getLsbD 7 = true → u.wb t = s.wb t) ∧
      (t = .out → u.summary = s.summary)

/-- R101: DISABLE t clears bit 7 of `WB[t]` and nothing else of the cache, responds OK; its word is
`0x2000 | t << 8`. The control-byte step of the disabled slot still writes out the whole byte. -/
def Obligations.DisableResult : Prop :=
  ∀ (t : Slot) (s : State),
    (∀ a0 a1 a2 a3, decode ⟨0x2000 ||| (BitVec.ofNat 16 t.id <<< 8), a0, a1, a2, a3⟩ = .ok (.disable t)) ∧
    ∃ u, exec (.disable t) s = .next u ∧
      (u.wb t).getLsbD 7 = false ∧ (∀ k, k ≠ 7 → (u.wb t).getLsbD k = (s.wb t).getLsbD k) ∧
      (∀ t', t' ≠ t → u.wb t' = s.wb t') ∧ (∀ m, u.rect m = s.rect m) ∧ u.resp = .ok ∧ KeepsOutside s u ∧
      u.enStatus.getLsbD t.id = false ∧ ((s.wb t).getLsbD 7 = false → u.wb t = s.wb t) ∧
      ∃ e, stepEvent u (.control t) = .ok e ∧ e.data = (u.wb t).setWidth 16 <<< ((t.id % 2) * 8)

/-- R102: SETBLEND t, v puts `v` in bit 5 of `WB[t]` and nothing else of the cache, responds OK; its word is
`0x3000 | t << 8 | v`. -/
def Obligations.SetblendResult : Prop :=
  ∀ (t : Slot) (v : Bool) (s : State),
    (∀ a0 a1 a2 a3, decode ⟨0x3000 ||| (BitVec.ofNat 16 t.id <<< 8) ||| BitVec.ofNat 16 v.toNat, a0, a1, a2, a3⟩ =
      .ok (.setblend t v)) ∧
    ∃ u, exec (.setblend t v) s = .next u ∧
      (u.wb t).getLsbD 5 = v ∧ (∀ k, k ≠ 5 → (u.wb t).getLsbD k = (s.wb t).getLsbD k) ∧
      (∀ t', t' ≠ t → u.wb t' = s.wb t') ∧ (∀ m, u.rect m = s.rect m) ∧ u.resp = .ok ∧ KeepsOutside s u ∧
      u.enStatus = s.enStatus ∧ ((s.wb t).getLsbD 5 = v → u.wb t = s.wb t)

/-- R103: SETOBJ t, v puts `v` in bit 4 of `WB[t]` and nothing else of the cache, responds OK; its word is
`0x4000 | t << 8 | v`. -/
def Obligations.SetobjResult : Prop :=
  ∀ (t : Slot) (v : Bool) (s : State),
    (∀ a0 a1 a2 a3, decode ⟨0x4000 ||| (BitVec.ofNat 16 t.id <<< 8) ||| BitVec.ofNat 16 v.toNat, a0, a1, a2, a3⟩ =
      .ok (.setobj t v)) ∧
    ∃ u, exec (.setobj t v) s = .next u ∧
      (u.wb t).getLsbD 4 = v ∧ (∀ k, k ≠ 4 → (u.wb t).getLsbD k = (s.wb t).getLsbD k) ∧
      (∀ t', t' ≠ t → u.wb t' = s.wb t') ∧ (∀ m, u.rect m = s.rect m) ∧ u.resp = .ok ∧ KeepsOutside s u ∧
      u.enStatus = s.enStatus ∧ ((s.wb t).getLsbD 4 = v → u.wb t = s.wb t)

/-- R104: SETBG t, bg, v puts `v` in bit `bg` of `WB[t]` and nothing else of the cache, so bits 7:4 never change;
responds OK; its word is `0x5000 | t << 8 | bg << 4 | v`. -/
def Obligations.SetbgResult : Prop :=
  ∀ (t : Slot) (bg : BitVec 2) (v : Bool) (s : State),
    (∀ a0 a1 a2 a3, decode ⟨0x5000 ||| (BitVec.ofNat 16 t.id <<< 8) ||| (BitVec.ofNat 16 bg.toNat <<< 4) |||
      BitVec.ofNat 16 v.toNat, a0, a1, a2, a3⟩ = .ok (.setbg t bg v)) ∧
    ∃ u, exec (.setbg t bg v) s = .next u ∧
      (u.wb t).getLsbD bg.toNat = v ∧ (∀ k, k ≠ bg.toNat → (u.wb t).getLsbD k = (s.wb t).getLsbD k) ∧
      (u.wb t).extractLsb' 4 4 = (s.wb t).extractLsb' 4 4 ∧
      (∀ t', t' ≠ t → u.wb t' = s.wb t') ∧ (∀ m, u.rect m = s.rect m) ∧ u.resp = .ok ∧ KeepsOutside s u ∧
      u.enStatus = s.enStatus

/-- R105: RESET t makes `WB[t]` zero whatever it held, keeps every rectangle and every target register, responds OK;
its word is `0x6000 | t << 8`. -/
def Obligations.ResetCommandResult : Prop :=
  ∀ (t : Slot) (s : State),
    (∀ a0 a1 a2 a3, decode ⟨0x6000 ||| (BitVec.ofNat 16 t.id <<< 8), a0, a1, a2, a3⟩ = .ok (.reset t)) ∧
    ∃ u, exec (.reset t) s = .next u ∧
      u.wb t = 0 ∧ (∀ t', t' ≠ t → u.wb t' = s.wb t') ∧ (∀ m, u.rect m = s.rect m) ∧ u.resp = .ok ∧
      KeepsOutside s u ∧ u.enStatus.getLsbD t.id = false

/-- R106: the frame of the six flag commands. Each runs, writes one byte `WB[t]` of the cache and nothing else but its
response; ENABLE, DISABLE, SETBLEND, SETOBJ and SETBG touch exactly one bit of it, preserving all others. -/
def Obligations.FlagCommandFrame : Prop :=
  ∀ (i : Instr) (t : Slot) (s : State), i.flagTarget = some t →
    ∃ u, exec i s = .next u ∧ KeepsOutside s u ∧ u.resp = .ok ∧ (∀ t', t' ≠ t → u.wb t' = s.wb t') ∧
      (∀ m, u.rect m = s.rect m) ∧
      (i ≠ .reset t → ∃ b, i.flagBit = some b ∧ ∀ k, k ≠ b → (u.wb t).getLsbD k = (s.wb t).getLsbD k)

/-- R106: two flag commands on different targets, or on different bits of one target, leave the same cache in either
order; on one bit of one target the later wins. -/
def Obligations.FlagCommandsCommute : Prop :=
  ∀ (i j : Instr) (t t' : Slot) (s : State), i.flagTarget = some t → j.flagTarget = some t' →
    ∃ u u', execAll [i, j] s = .next u ∧ execAll [j, i] s = .next u' ∧
      (t ≠ t' → KeepsCache u u') ∧
      (∀ b b', i.flagBit = some b → j.flagBit = some b' → b ≠ b' → KeepsCache u u') ∧
      (t = t' → i.flagBit = j.flagBit → ∃ v, exec j s = .next v ∧ KeepsCache v u)

/-- R28: `EN(t)` after any sequence of commands reflects exactly the most recent ENABLE or DISABLE of slot `t`, a RESET
counted as a disable, and no other command's effect; `en_status[t]` shows it, and the enable summary reads it. -/
def Obligations.FlagIndependence : Prop :=
  ∀ (is : List Instr) (s : State), ∃ u, execAll is s = .next u ∧ ∀ t : Slot,
    u.en t = is.foldl (fun before i => i.enables t before) (s.en t) ∧ u.en t = (u.wb t).getLsbD 7 ∧
    u.enStatus.getLsbD t.id = u.en t ∧
    u.summary = BitVec.ofBool (u.en .obj) ++ BitVec.ofBool (u.en .win1) ++ BitVec.ofBool (u.en .win0)

/-- R27: `busy = (SEQ != 0)`, and `en_status[s] = WB[s][7]` for the four slots. -/
def Obligations.StatusOutputs : Prop :=
  ∀ s : State, (s.busy = true ↔ s.seq ≠ 0) ∧ (s.cmdReady = true ↔ s.seq = 0) ∧
    (∀ t : Slot, s.enStatus.getLsbD t.id = (s.wb t).getLsbD 7) ∧ s.enStatus.getLsbD 4 = false

/-! ## The position commands -/

/-- R121: SETPOSU8 m replaces the rectangle of `m` by the four bytes of `arg0`, verbatim, and changes nothing else but
the response; its word is `0x8000 | m << 8` and it ignores `arg1` to `arg3`. -/
def Obligations.Setposu8Result : Prop :=
  ∀ (m : Mov) (x y w h : Byte) (s : State),
    (∀ a0 a1 a2 a3, decode ⟨0x8000 ||| (BitVec.ofNat 16 m.id <<< 8), a0, a1, a2, a3⟩ =
      .ok (.setposu8 m (a0.extractLsb' 24 8) (a0.extractLsb' 16 8) (a0.extractLsb' 8 8) (a0.extractLsb' 0 8))) ∧
    ∃ u, exec (.setposu8 m x y w h) s = .next u ∧
      (u.rect m).x = x ∧ (u.rect m).y = y ∧ (u.rect m).w = w ∧ (u.rect m).h = h ∧
      (∀ m', m' ≠ m → u.rect m' = s.rect m') ∧ (∀ t, u.wb t = s.wb t) ∧ u.resp = .ok ∧ KeepsOutside s u

/-- R122: SETPOS m clamps the position, compared as signed 32-bit integers, to `[0, SCREEN_W]` and `[0, SCREEN_H]`,
keeps the low 8 bits of the size whatever its sign, and changes nothing else but the response; its word is
`0x9000 | m << 8`. Applied again with the stored values it changes nothing (f). The bounds fit a byte (R7). -/
def Obligations.SetposResult : Prop :=
  ∀ (m : Mov) (x y w h : Arg32) (s : State), s.cfg.screenW ≤ 255 → s.cfg.screenH ≤ 255 →
    (∀ a0 a1 a2 a3, decode ⟨0x9000 ||| (BitVec.ofNat 16 m.id <<< 8), a0, a1, a2, a3⟩ = .ok (.setpos m a0 a1 a2 a3)) ∧
    ∃ u, exec (.setpos m x y w h) s = .next u ∧
      ((u.rect m).x.toNat : Int) = max 0 (min x.toInt s.cfg.screenW) ∧
      ((u.rect m).y.toNat : Int) = max 0 (min y.toInt s.cfg.screenH) ∧
      (u.rect m).w.toNat = w.toNat % 256 ∧ (u.rect m).h.toNat = h.toNat % 256 ∧
      (∀ m', m' ≠ m → u.rect m' = s.rect m') ∧ (∀ t, u.wb t = s.wb t) ∧ u.resp = .ok ∧ KeepsOutside s u ∧
      exec (.setpos m ((u.rect m).x.setWidth 32) ((u.rect m).y.setWidth 32) ((u.rect m).w.setWidth 32)
        ((u.rect m).h.setWidth 32)) u = .next u

/-- R123: after SETPOS, for every argument value, the stored position is on the screen; clamping twice equals clamping
once; SETPOSU8 gives no such bound. -/
def Obligations.SetposBounds : Prop :=
  (∀ (m : Mov) (x y w h : Arg32) (s : State), s.cfg.screenW ≤ 255 → s.cfg.screenH ≤ 255 →
    ∃ u, exec (.setpos m x y w h) s = .next u ∧
      (u.rect m).x.toNat ≤ s.cfg.screenW ∧ (u.rect m).y.toNat ≤ s.cfg.screenH) ∧
  (∀ v lo hi : Int, lo ≤ hi → clamp (clamp v lo hi) lo hi = clamp v lo hi) ∧
  (∃ (x y w h : Byte) (u : State), exec (.setposu8 .win0 x y w h) State.reset = .next u ∧
    u.cfg.screenW < (u.rect .win0).x.toNat ∧ u.cfg.screenH < (u.rect .win0).y.toNat)

/-- R120, R106: the frame of the two position commands. Each runs, replaces one rectangle, and touches no flag byte, no
other rectangle, no byte of the target register space, no event of the trace and not `SEQ`. -/
def Obligations.PositionCommandFrame : Prop :=
  ∀ (i : Instr) (m : Mov) (s : State), i.posTarget = some m →
    ∃ u, exec i s = .next u ∧ KeepsOutside s u ∧ u.resp = .ok ∧ (∀ t, u.wb t = s.wb t) ∧
      (∀ m', m' ≠ m → u.rect m' = s.rect m') ∧ ∀ m' : Mov, u.en m'.slot = (s.wb m'.slot).getLsbD 7

/-! ## The packer and the write steps -/

/-- R53: `FieldWrite(a, lo, len, v)`: its transaction, bit by bit; the field becomes `v`, every other bit of the
register and every other register keep their value; `MemWrite(a, 2, v)` is `FieldWrite(a, 0, 16, v)`; every write step
has one of four masks. -/
def Obligations.FieldWriteMerges : Prop :=
  (∀ (s : State) (a lo len : Nat) (v : BitVec len), s.mem.wf = true → 1 ≤ len → lo + len ≤ 16 →
    let e := fieldWrite a lo len v
    let u := s.busWrite e
    e.addr = a ∧
    (∀ k, k < 16 → e.mask.getLsbD k = (decide (lo ≤ k) && decide (k < lo + len))) ∧
    (∀ k, k < 16 → e.data.getLsbD k = (decide (lo ≤ k) && v.getLsbD (k - lo))) ∧
    (∀ k, k < len → (u.reg a).getLsbD (lo + k) = v.getLsbD k) ∧
    (∀ k, k < lo ∨ lo + len ≤ k → (u.reg a).getLsbD k = (s.reg a).getLsbD k) ∧
    (∀ b, b ≠ a → u.reg b = s.reg b)) ∧
  (∀ (s : State) (a : Nat) (v : Reg16), s.mem.wf = true →
    memWrite a v = fieldWrite a 0 16 v ∧ (s.busWrite (memWrite a v)).reg a = v) ∧
  (∀ (s : State) (op : SeqOp) (e : WriteEvent), stepEvent s op = .ok e →
    e.mask = 0x00FF ∨ e.mask = 0xFF00 ∨ e.mask = 0xFFFF ∨ e.mask = 0xE000)

/-- R54: `SlotField(s) = (s / 2, (s % 2) * 8)`, and where it puts each slot's flag byte. -/
def Obligations.SlotPlacement : Prop :=
  (∀ t : Slot, slotField t = (t.id / 2, (t.id % 2) * 8)) ∧
  ∀ s : State,
    stepEvent s (.control .win0) = .ok ⟨s.cfg.winctlBase, 0x00FF, (s.wb .win0).setWidth 16⟩ ∧
    stepEvent s (.control .win1) = .ok ⟨s.cfg.winctlBase, 0xFF00, s.wb .win1 ++ (0 : Byte)⟩ ∧
    stepEvent s (.control .out) = .ok ⟨s.cfg.winctlBase + 1, 0x00FF, (s.wb .out).setWidth 16⟩ ∧
    stepEvent s (.control .obj) = .ok ⟨s.cfg.winctlBase + 1, 0xFF00, s.wb .obj ++ (0 : Byte)⟩

/-- R62: index `a` of the register space is at byte address `REGION_BASE + 2 * a`, the low byte at the lower address. -/
def Obligations.LittleEndianRegisters : Prop :=
  ∀ (s : State) (a : Nat) (v : Reg16), s.mem.wf = true →
    (s.setReg a v).mem.readByte (s.cfg.regionBase + 2 * a) = v.extractLsb' 0 8 ∧
    (s.setReg a v).mem.readByte (s.cfg.regionBase + 2 * a + 1) = v.extractLsb' 8 8 ∧
    (s.setReg a v).reg a = v

/-- R107: the control-byte step of slot `t`, at `SEQ` 1, 4, 7 and 8 and at no other time: the slot's half of its
control register becomes `WB[t]`, the other half and every other register are kept, and no cache state changes. -/
def Obligations.ControlByteStep : Prop :=
  (∀ (n : BitVec 4) (t : Slot), seqOp n = some (.control t) ↔ (n, t) ∈ [(1, .win0), (4, .win1), (7, .out), (8, .obj)]) ∧
  ∀ (s : State) (t : Slot), s.mem.wf = true → seqOp s.seq = some (.control t) →
    let a := s.cfg.winctlBase + t.id / 2
    let off := (t.id % 2) * 8
    ∃ u, commitStep s = .next u ∧ u.seq = s.seq + 1 ∧ KeepsCache s u ∧
      (u.reg a).extractLsb' off 8 = s.wb t ∧ (u.reg a).extractLsb' (8 - off) 8 = (s.reg a).extractLsb' (8 - off) 8 ∧
      (∀ b, b ≠ a → u.reg b = s.reg b) ∧
      u.trace = s.trace ++ [⟨a, (0x00FF : Reg16) <<< off, (s.wb t).setWidth 16 <<< off⟩]

/-- R124, R125: the extent steps, at `SEQ` 2, 3 for window 0 and 5, 6 for window 1 and at no other time: one full write
of `{RX, Right}` or `{RY, Bottom}`, where the edge sum fits a byte or `EDGE_OVF` is `wrap8`, and
`EdgeOverflow(m)` where it does not under `fault`; no cache state changes. -/
def Obligations.ExtentSteps : Prop :=
  (∀ (n : BitVec 4) (m : Mov), seqOp n = some (.horizontal m) ↔ (n, m) ∈ [(2, .win0), (5, .win1)]) ∧
  (∀ (n : BitVec 4) (m : Mov), seqOp n = some (.vertical m) ↔ (n, m) ∈ [(3, .win0), (6, .win1)]) ∧
  ∀ (s : State) (m : Mov), s.mem.wf = true →
    (seqOp s.seq = some (.horizontal m) →
      (s.cfg.edgeOvf = .wrap8 ∨ (s.rect m).x.toNat + (s.rect m).w.toNat ≤ 255) →
      let v : Reg16 := (s.rect m).x ++ edgeByte (s.rect m).x (s.rect m).w
      ∃ u, commitStep s = .next u ∧ u.seq = s.seq + 1 ∧ KeepsCache s u ∧ u.winh m = v ∧
        (∀ b, b ≠ s.cfg.winhBase + m.id → u.reg b = s.reg b) ∧
        u.trace = s.trace ++ [⟨s.cfg.winhBase + m.id, 0xFFFF, v⟩]) ∧
    (seqOp s.seq = some (.horizontal m) → s.cfg.edgeOvf = .fault →
      255 < (s.rect m).x.toNat + (s.rect m).w.toNat → commitStep s = .fault (.edgeOverflow m s.seq)) ∧
    (seqOp s.seq = some (.vertical m) →
      (s.cfg.edgeOvf = .wrap8 ∨ (s.rect m).y.toNat + (s.rect m).h.toNat ≤ 255) →
      let v : Reg16 := (s.rect m).y ++ edgeByte (s.rect m).y (s.rect m).h
      ∃ u, commitStep s = .next u ∧ u.seq = s.seq + 1 ∧ KeepsCache s u ∧ u.winv m = v ∧
        (∀ b, b ≠ s.cfg.winvBase + m.id → u.reg b = s.reg b) ∧
        u.trace = s.trace ++ [⟨s.cfg.winvBase + m.id, 0xFFFF, v⟩]) ∧
    (seqOp s.seq = some (.vertical m) → s.cfg.edgeOvf = .fault →
      255 < (s.rect m).y.toNat + (s.rect m).h.toNat → commitStep s = .fault (.edgeOverflow m s.seq))

/-- R125: an edge is the exact sum when that fits a byte; above 255 there is none under `fault`, and the low byte of the
sum under `wrap8`. -/
def Obligations.EdgeValue : Prop :=
  ∀ (ovf : EdgeOvf) (pos size : Byte),
    (pos.toNat + size.toNat ≤ 255 → ∃ e, edge ovf pos size = some e ∧ e.toNat = pos.toNat + size.toNat) ∧
    (255 < pos.toNat + size.toNat → edge .fault pos size = none ∧
      ∃ e, edge .wrap8 pos size = some e ∧ e.toNat = pos.toNat + size.toNat - 256)

/-- R164: `EdgeOverflow(m)` is raised exactly under `EDGE_OVF = fault`, at step 2 or 5 when `RX[m] + RW[m] > 255` and at
step 3 or 6 when `RY[m] + RH[m] > 255`, `m` 0 for steps 2 and 3 and 1 for steps 5 and 6; it records `m` and the step. -/
def Obligations.EdgeOverflowExactly : Prop :=
  ∀ (s : State) (m : Mov) (n : BitVec 4),
    commitStep s = .fault (.edgeOverflow m n) ↔
      s.cfg.edgeOvf = .fault ∧ s.seq = n ∧
      (((n, m) ∈ [(2, Mov.win0), (5, Mov.win1)] ∧ 255 < (s.rect m).x.toNat + (s.rect m).w.toNat) ∨
       ((n, m) ∈ [(3, Mov.win0), (6, Mov.win1)] ∧ 255 < (s.rect m).y.toNat + (s.rect m).h.toNat))

/-- R144: the enable summary has `EN(0)`, `EN(1)`, `EN(3)` in its bits 0, 1, 2, and the outside Window feeds no bit. -/
def Obligations.SummaryValue : Prop :=
  ∀ s : State, s.summary.getLsbD 0 = (s.wb .win0).getLsbD 7 ∧ s.summary.getLsbD 1 = (s.wb .win1).getLsbD 7 ∧
    s.summary.getLsbD 2 = (s.wb .obj).getLsbD 7 ∧ ∀ v, (s.setWb .out v).summary = s.summary

/-- R145, R35: step 9 writes `DISPCNT[15:13] = {EN(3), EN(1), EN(0)}`, keeps `DISPCNT[12:0]` and every other register,
ends the commit and responds OK. Nothing changes the cache during a commit, so the summary is that of the cache as it
stood when COMMIT was taken. -/
def Obligations.SummaryStep : Prop :=
  (∀ s u : State, s.seq ≠ 0 → step s = .next u → KeepsCache s u) ∧
  ∀ s : State, s.mem.wf = true → s.seq = 9 →
    ∃ u, commitStep s = .next u ∧ u.seq = 0 ∧ u.resp = .ok ∧ KeepsCache s u ∧
      u.dispcnt.getLsbD 13 = s.en .win0 ∧ u.dispcnt.getLsbD 14 = s.en .win1 ∧ u.dispcnt.getLsbD 15 = s.en .obj ∧
      u.dispcnt.extractLsb' 0 13 = s.dispcnt.extractLsb' 0 13 ∧
      (∀ b, b ≠ s.cfg.dispcntAddr → u.reg b = s.reg b) ∧
      u.trace = s.trace ++ [⟨s.cfg.dispcntAddr, 0xE000, s.summary ++ (0 : BitVec 13)⟩]

/-- R147: COMMIT takes `SEQ` from 0 to 1; the write of step `n` takes it to `n + 1`, and that of step 9 to 0 with the
response; a step `n` in 1..9 that faults is an `EdgeOverflow`, at the number `SEQ` holds; no other command changes
`SEQ`. -/
def Obligations.Sequencing : Prop :=
  (∀ s : State, ∃ u, exec .commit s = .next u ∧ u.seq = 1) ∧
  (∀ s u : State, commitStep s = .next u →
    (s.seq.toNat ∈ [1, 2, 3, 4, 5, 6, 7, 8] ∧ u.seq.toNat = s.seq.toNat + 1 ∧ u.resp = s.resp) ∨
    (s.seq = 9 ∧ u.seq = 0 ∧ u.resp = .ok)) ∧
  (∀ (s : State) (f : Fault), 1 ≤ s.seq.toNat → s.seq.toNat ≤ 9 → commitStep s = .fault f →
    ∃ m, f = .edgeOverflow m s.seq) ∧
  (∀ (i : Instr) (s : State), i ≠ .commit → ∃ u, exec i s = .next u ∧ u.seq = s.seq)

/-! ## COMMIT -/

/-- R143, R147, R59 (d): what taking a COMMIT leaves unchanged: everything but `SEQ`. Its writes are the nine steps that
follow; the step-by-step form is the model's (log entry 8). -/
def Obligations.CommitTakenFrame : Prop :=
  ∀ s : State, ∃ u, exec .commit s = .next u ∧ u.seq = 1 ∧ KeepsCache s u ∧ u.resp = s.resp ∧ u.cfg = s.cfg ∧
    u.wasReset = s.wasReset ∧ u.host = s.host ∧ u.envTick = s.envTick ∧ u.trace = s.trace ∧
    ∀ a, u.mem.readByte a = s.mem.readByte a

/-- R53, R143: what a write step leaves unchanged: the cache, the parameters, the port, and every byte outside the one
register its transaction addresses. -/
def Obligations.WriteStepFrame : Prop :=
  ∀ (s : State) (op : SeqOp) (e : WriteEvent), seqOp s.seq = some op → stepEvent s op = .ok e →
    ∃ u, commitStep s = .next u ∧ KeepsCache s u ∧ u.cfg = s.cfg ∧ u.wasReset = s.wasReset ∧ u.host = s.host ∧
      u.envTick = s.envTick ∧ u.trace = s.trace ++ [e] ∧
      ∀ a, a ≠ regAddr s.cfg e.addr → a ≠ regAddr s.cfg e.addr + 1 → u.mem.readByte a = s.mem.readByte a

/-- R143, R149: COMMIT is taken and, in nine write steps, completes: the nine transactions of R143 in order are added
to the trace, the six window registers and `DISPCNT[15:13]` are functions of the cache alone, the cache is what it was,
`SEQ` is 0 and the response is OK. The premises: parameters R7 allows, canonical memory, an idle block, and edges that
fit a byte unless `EDGE_OVF` is `wrap8` (R125); where they do not, the commit ends in `EdgeOverflow` for the first
overflowing edge, at its step, after the writes of the earlier steps and no other. Its word is `0xC000`. -/
def Obligations.CommitCompletes : Prop :=
  (∀ a0 a1 a2 a3, decode ⟨0xC000, a0, a1, a2, a3⟩ = .ok .commit) ∧
  (∀ s : State, s.cfg.wellFormed = true → s.mem.wf = true → s.seq = 0 → ¬ s.edgesOk →
    ∃ t u m n, s.firstOverflow = some (m, n) ∧ n ∈ [2, 3, 5, 6] ∧ exec .commit s = .next t ∧
      stepN (n - 1) t = .next u ∧ u.trace = s.trace ++ (commitTrace s).take (n - 1) ∧
      step u = .fault (.edgeOverflow m (BitVec.ofNat 4 n)) ∧
      stepN 9 t = .fault (.edgeOverflow m (BitVec.ofNat 4 n))) ∧
  ∀ s : State, s.cfg.wellFormed = true → s.mem.wf = true → s.seq = 0 → s.edgesOk →
    ∃ t u, exec .commit s = .next t ∧ t.seq = 1 ∧ (∀ k, k < 9 → ∃ v, stepN k t = .next v ∧ v.busy = true) ∧
      stepN 9 t = .next u ∧ u.seq = 0 ∧ u.resp = .ok ∧ KeepsCache s u ∧ u.enStatus = s.enStatus ∧
      u.host = s.host ∧ u.cfg = s.cfg ∧ u.trace = s.trace ++ commitTrace s ∧ Published s u

/-- R143, R58, R147: the same from the command port: the word `0xC000` on the port, and ten steps. That the host's moves
stand in the state and that taking the command is a step of its own are the model's choices (log entries 6 and 8). -/
def Obligations.CommitFromPort : Prop :=
  ∀ (s : State) (a0 a1 a2 a3 : Arg32) (rest : List HostMove),
    s.cfg.wellFormed = true → s.mem.wf = true → s.seq = 0 → s.wasReset = true → s.edgesOk →
    s.host = .command ⟨0xC000, a0, a1, a2, a3⟩ :: rest →
    ∃ u, stepN 10 s = .next u ∧ u.seq = 0 ∧ u.resp = .ok ∧ KeepsCache s u ∧ u.host = rest ∧
      u.trace = s.trace ++ commitTrace s ∧ Published s u

/-- R149 (a): a second COMMIT with no setter in between writes the same nine transactions again and leaves the six
window registers and `DISPCNT[15:13]` unchanged. The ten steps of each and the host's list are the model's form (log
entries 8 and 6). -/
def Obligations.CommitIdempotent : Prop :=
  ∀ (s : State) (rest : List HostMove),
    s.cfg.wellFormed = true → s.mem.wf = true → s.seq = 0 → s.wasReset = true → s.edgesOk →
    s.host = .command (encode .commit) :: .command (encode .commit) :: rest →
    ∃ u v, stepN 10 s = .next u ∧ stepN 10 u = .next v ∧ KeepsCache s v ∧
      (∃ es, es.length = 9 ∧ u.trace = s.trace ++ es ∧ v.trace = u.trace ++ es) ∧
      v.winctlA = u.winctlA ∧ v.winctlB = u.winctlB ∧ (∀ m, v.winh m = u.winh m) ∧ (∀ m, v.winv m = u.winv m) ∧
      v.dispcnt.extractLsb' 13 3 = u.dispcnt.extractLsb' 13 3

/-- R149 (b): the registers after the nine writes of a commit are the same under any order of them. -/
def Obligations.CommitOrderIrrelevant : Prop :=
  ∀ (s : State) (es : List WriteEvent), s.cfg.wellFormed = true → s.mem.wf = true → es.Perm (commitTrace s) →
    ∀ a, (es.foldl State.busWrite s).reg a = ((commitTrace s).foldl State.busWrite s).reg a

/-- R125, R147, R166: under `fault`, a COMMIT with an overflowing edge performs the writes of the steps before the first
overflowing one, in the order of R143, and no later write; it stops there with `EdgeOverflow(m)`, `SEQ` being the step's
number `n` and the cache what it was. Whatever else overflows, rectangle 0's right edge is reported first, at step 2. The
step that takes the command and the host's list are the model's form (log entries 8 and 6). -/
def Obligations.FirstOverflowReported : Prop :=
  ∀ (s : State) (a0 a1 a2 a3 : Arg32) (rest : List HostMove) (m : Mov) (n : Nat),
    s.cfg.wellFormed = true → s.mem.wf = true → s.seq = 0 → s.wasReset = true → s.cfg.edgeOvf = .fault →
    s.firstOverflow = some (m, n) → s.host = .command ⟨0xC000, a0, a1, a2, a3⟩ :: rest →
    ∃ u, stepN n s = .next u ∧ u.seq = BitVec.ofNat 4 n ∧ KeepsCache s u ∧
      u.trace = s.trace ++ (commitTrace s).take (n - 1) ∧
      (∀ a k, k < 16 → (a ≠ s.cfg.dispcntAddr ∨ 13 ≤ k) →
        (u.reg a).getLsbD k = ((((commitTrace s).take (n - 1)).foldl State.busWrite s).reg a).getLsbD k) ∧
      u.winctlA.extractLsb' 0 8 = s.wb .win0 ∧
      (n = 2 → u.winh .win0 = s.winh .win0) ∧
      (n ≤ 3 → u.winv .win0 = s.winv .win0 ∧ u.winctlA.extractLsb' 8 8 = s.winctlA.extractLsb' 8 8) ∧
      (n ≤ 5 → u.winh .win1 = s.winh .win1) ∧ u.winv .win1 = s.winv .win1 ∧ u.winctlB = s.winctlB ∧
      u.dispcnt.extractLsb' 13 3 = s.dispcnt.extractLsb' 13 3 ∧
      step u = .fault (.edgeOverflow m (BitVec.ofNat 4 n)) ∧
      (255 < (s.rect .win0).x.toNat + (s.rect .win0).w.toNat → m = .win0 ∧ n = 2)

/-- R80, R22: after a commit the reserved bit of each flag byte reads 0 in `WINCTL_A` and `WINCTL_B`, from every state
of the invariant. The ten steps and the host's list are the model's form (log entries 8 and 6). -/
def Obligations.ReservedBitPublishedZero : Prop :=
  ∀ (s : State) (rest : List HostMove),
    s.cfg.wellFormed = true → s.Inv → s.seq = 0 → s.wasReset = true → s.edgesOk →
    s.host = .command (encode .commit) :: rest →
    ∃ u, stepN 10 s = .next u ∧ u.winctlA.getLsbD 6 = false ∧ u.winctlA.getLsbD 14 = false ∧
      u.winctlB.getLsbD 6 = false ∧ u.winctlB.getLsbD 14 = false

/-! ## Reset -/

/-- R38, R39: what reset leaves: the cache zero, `SEQ` 0, `busy` and `en_status` 0, `resp` OK, the six window registers
and `DISPCNT[15:13]` zero. Nothing is said of `DISPCNT[12:0]`, which the spec leaves unspecified. -/
def Obligations.ResetStateValues : Prop :=
  (∀ t, State.reset.wb t = 0) ∧ (∀ m, State.reset.rect m = ⟨0, 0, 0, 0⟩) ∧ State.reset.seq = 0 ∧
    State.reset.busy = false ∧ State.reset.enStatus = 0 ∧ State.reset.resp = .ok ∧ State.reset.winctlA = 0 ∧
    State.reset.winctlB = 0 ∧ (∀ m, State.reset.winh m = 0) ∧ (∀ m, State.reset.winv m = 0) ∧
    State.reset.dispcnt.extractLsb' 13 3 = 0

/-- R38, R39, R180, R181: the reset input, taken by an idle block in any state, reset before or not, whatever the cache
and the registers hold: ten steps later the cache is zero, the same nine transactions with zero data have been
written, the registers hold the values of R39, and the block is ready. That the reset is taken in a step of its own, the
reset flag, and that the old trace is kept are the model's choices (log entries 15, 7 and 16). -/
def Obligations.ResetInputRun : Prop :=
  ∀ (s : State) (rest : List HostMove), s.cfg.wellFormed = true → s.mem.wf = true → s.seq = 0 →
    s.host = .reset :: rest →
    ∃ u, stepN 10 s = .next u ∧ u.wasReset = true ∧ (∀ t, u.wb t = 0) ∧ (∀ m, u.rect m = ⟨0, 0, 0, 0⟩) ∧ u.seq = 0 ∧
      u.busy = false ∧ u.enStatus = 0 ∧ u.resp = .ok ∧ u.host = rest ∧
      u.winctlA = 0 ∧ u.winctlB = 0 ∧ (∀ m, u.winh m = 0) ∧ (∀ m, u.winv m = 0) ∧ u.dispcnt.extractLsb' 13 3 = 0 ∧
      u.trace = s.trace ++
        [⟨s.cfg.winctlBase, 0x00FF, 0x0000⟩, ⟨s.cfg.winhBase, 0xFFFF, 0x0000⟩, ⟨s.cfg.winvBase, 0xFFFF, 0x0000⟩,
         ⟨s.cfg.winctlBase, 0xFF00, 0x0000⟩, ⟨s.cfg.winhBase + 1, 0xFFFF, 0x0000⟩,
         ⟨s.cfg.winvBase + 1, 0xFFFF, 0x0000⟩, ⟨s.cfg.winctlBase + 1, 0x00FF, 0x0000⟩,
         ⟨s.cfg.winctlBase + 1, 0xFF00, 0x0000⟩, ⟨s.cfg.dispcntAddr, 0xE000, 0x0000⟩]

/-! ## Invariants -/

/-- R22, R26: the state after reset meets the invariant, and its parameters meet R7. -/
def Obligations.ResetMeetsInvariant : Prop := State.reset.Inv ∧ State.reset.cfg.wellFormed = true

/-- R22, R26: every step keeps the invariant: bit 6 of every flag byte is 0, `SEQ` is 0 to 9, and memory is canonical
(the model's own form, log entry 5). -/
def Obligations.StepKeepsInvariant : Prop := ∀ s u : State, s.Inv → step s = .next u → u.Inv

/-- R57: after reset the registers are what the trace makes them. That the reset's events stand on the trace, and that
bytes outside the seven registers read zero, are the model's choices (log entries 16 and 5). -/
def Obligations.ResetMeetsTraced : Prop := State.reset.traced

/-- R57, R37: every step keeps it that the registers, `DISPCNT[12:0]` aside, are what the write trace makes of zero. The
trace held in the state, and the canonical memory, are the model's (log entries 16 and 5). -/
def Obligations.StepKeepsTraced : Prop := ∀ s u : State, s.traced → step s = .next u → u.traced

/-- R6, R183: no step changes the parameters or takes the block back to before its first reset. Parameters and reset
flag held in the state are the model's form (log entries 1 and 7). -/
def Obligations.ParametersFixed : Prop :=
  ∀ s u : State, step s = .next u → u.cfg = s.cfg ∧ (s.wasReset = true → u.wasReset = true)

/-! ## Whole-machine rules -/

/-- R58: when the command on the port of an idle block, reset before, decodes to `i`, a step is `exec i` on the state
with the environment's turn taken and the command off the port; and while the block is busy a step leaves the port
alone. One turn of the environment in each step, before the command, and the host's list are the model's choices (log
entries 4 and 6). -/
def Obligations.StepRunsDecoded : Prop :=
  (∀ (s : State) (c : Command) (rest : List HostMove) (i : Instr),
    s.cfg.wellFormed = true → s.wasReset = true → s.seq = 0 → s.host = .command c :: rest → decode c = .ok i →
    step s = exec i { s.envMove with host := rest }) ∧
  (∀ s u : State, s.seq ≠ 0 → step s = .next u → u.host = s.host)

/-- R163: a word that matches no row, on the port of an idle block, sets `resp` to ILLEGAL and has no other effect:
cache, `SEQ`, trace and every byte of the target register space are what they were, and the next move is on the port.
No command of the nine raises it. Stated of the block's own part of a step; the environment's is `EnvironmentTurn`. -/
def Obligations.IllegalCommandEffect : Prop :=
  (∀ (s : State) (c : Command) (rest : List HostMove),
    s.wasReset = true → s.seq = 0 → s.host = .command c :: rest →
    (∀ r ∈ opcodeTable, c.cmd &&& r.mask ≠ r.pattern) →
    ∃ u, blockStep s = .next u ∧ u.resp = .illegal ∧ u.resp.code = 1 ∧ KeepsCache s u ∧ u.seq = 0 ∧ u.cfg = s.cfg ∧
      u.wasReset = true ∧ u.envTick = s.envTick ∧ u.trace = s.trace ∧ u.host = rest ∧
      ∀ a, u.mem.readByte a = s.mem.readByte a) ∧
  ∀ (i : Instr) (s : State), ∃ u, exec i s = .next u ∧ (u.resp = .ok ∨ (i = .commit ∧ u.resp = s.resp))

/-- R37: the environment's turn changes `DISPCNT[12:0]`, to the free value, and nothing else a command can see.
One turn per step is the model's choice (log entry 4). -/
def Obligations.EnvironmentTurn : Prop :=
  ∀ s : State, s.mem.wf = true →
    KeepsCache s s.envMove ∧ s.envMove.cfg = s.cfg ∧ s.envMove.seq = s.seq ∧ s.envMove.resp = s.resp ∧
    s.envMove.host = s.host ∧ s.envMove.trace = s.trace ∧ s.envMove.wasReset = s.wasReset ∧
    (∀ a, a ≠ regAddr s.cfg s.cfg.dispcntAddr → a ≠ regAddr s.cfg s.cfg.dispcntAddr + 1 →
      s.envMove.mem.readByte a = s.mem.readByte a) ∧
    s.envMove.dispcnt.extractLsb' 13 3 = s.dispcnt.extractLsb' 13 3 ∧
    s.envMove.dispcnt.extractLsb' 0 13 = Config.envDraw s.envTick (s.dispcnt.extractLsb' 0 13)

/-- R59 (d), R185, R41: a step of an idle block, whatever stands on its port, writes no event and changes neither the
six window registers nor `DISPCNT[15:13]`: only the write steps of a commit publish. That a step which takes the reset
input keeps the trace and writes nothing yet is the model's choice (log entries 15 and 16). -/
def Obligations.SettersPublishNothing : Prop :=
  ∀ s u : State, s.mem.wf = true → s.seq = 0 → step s = .next u →
    u.trace = s.trace ∧ u.winctlA = s.winctlA ∧ u.winctlB = s.winctlB ∧ (∀ m, u.winh m = s.winh m) ∧
      (∀ m, u.winv m = s.winv m) ∧ u.dispcnt.extractLsb' 13 3 = s.dispcnt.extractLsb' 13 3

/-- R50, 90_conflicts.md C4: no step changes a byte outside the seven target registers. -/
def Obligations.OnlySevenRegistersReached : Prop :=
  ∀ s u : State, step s = .next u → ∀ a, s.cfg.foreign a → u.mem.readByte a = s.mem.readByte a

/-- R51: the block has no read channel. Two states that differ in the target register space, and in the environment's
turn, in any way: their steps end alike, and the next states again differ in nothing else. -/
def Obligations.BlockNeverReads : Prop :=
  ∀ s u : State, AgreeButMem s u →
    (∃ s' u', step s = .next s' ∧ step u = .next u' ∧ AgreeButMem s' u') ∨
    (∃ f, step s = .fault f ∧ step u = .fault f) ∨ (∃ r, step s = .refused r ∧ step u = .refused r)

/-- R26, R147: whatever a step does, `SEQ` goes 0, 1, 2, ..., 9, 0 and nothing else: from 0 it stays or goes to 1, from
`n` in 1..8 to `n + 1`, from 9 to 0. From 10 to 15 there is no next state, by the model's choice (log entry 12). -/
def Obligations.SeqOrder : Prop :=
  ∀ s u : State, step s = .next u →
    (s.seq.toNat = 0 ∧ u.seq.toNat ≤ 1) ∨ (1 ≤ s.seq.toNat ∧ s.seq.toNat ≤ 8 ∧ u.seq.toNat = s.seq.toNat + 1) ∨
    (s.seq.toNat = 9 ∧ u.seq.toNat = 0)

/-- R52, R57: a step adds at most one event to the trace, and only while a commit is in progress; its data is 0 outside
its mask and its address one of the seven register indices. That the step which takes the reset input keeps the trace is
the model's choice (log entry 16). -/
def Obligations.TraceGrowth : Prop :=
  ∀ s u : State, step s = .next u →
    (s.seq = 0 ∧ u.trace = s.trace) ∨
    (s.seq ≠ 0 ∧ ∃ e, u.trace = s.trace ++ [e] ∧ e.data &&& ~~~e.mask = 0 ∧ e.addr ∈ s.cfg.indices)

/-- R160: no command can fail. Every command runs in every state, a setter with the response OK; a step faults only as
R164 says. The premise is the invariant of R22 and R26. -/
def Obligations.NoCommandFails : Prop :=
  (∀ (i : Instr) (s : State), ∃ u, exec i s = .next u ∧ (i ≠ .commit → u.resp = .ok)) ∧
  (∀ (s : State) (f : Fault), s.Inv → step s = .fault f →
    s.cfg.edgeOvf = .fault ∧ ∃ m, f = .edgeOverflow m s.seq ∧ ¬ (s.rect m).fits)

/-- R7: a configuration that breaks a constraint is refused, and no other: the screen bounds fit a byte and the seven
register indices are pairwise distinct. That every step is refused, whatever the block was about to do, is the model's
choice (log entry 14). -/
def Obligations.BadParametersRefused : Prop :=
  ∀ s : State, step s = .refused .badConfig ↔
    ¬ (s.cfg.screenW ≤ 255 ∧ s.cfg.screenH ≤ 255 ∧
      [s.cfg.winctlBase, s.cfg.winctlBase + 1, s.cfg.winhBase, s.cfg.winhBase + 1, s.cfg.winvBase, s.cfg.winvBase + 1,
        s.cfg.dispcntAddr].Nodup)

/-- R183, 93_implementation_defined.md U13: a command to a block that was never reset is refused. The refusal is the
model's form of "has no meaning" (log entry 7). -/
def Obligations.NeverResetRefused : Prop :=
  ∀ (s : State) (c : Command) (rest : List HostMove), s.cfg.wellFormed = true → s.seq = 0 → s.wasReset = false →
    s.host = .command c :: rest → step s = .refused .neverReset

/-- R162: the response codes, and that `resp` holds the last command's code until the next command responds, over every
step: a setter and an illegal word respond in the step that takes them, and a commit or a reset in its ninth write step;
a step that takes a COMMIT or the reset input, a write step before the ninth, and a step with an empty port keep `resp`.
The steps that take a COMMIT and the reset input, and what an empty port does, are the model's form (log entries 8, 15
and 19). -/
def Obligations.ResponseHeld : Prop :=
  Resp.ok.code = 0 ∧ Resp.illegal.code = 1 ∧
  (∀ s u : State, step s = .next u → s.seq ≠ 0 → s.seq ≠ 9 → u.resp = s.resp) ∧
  (∀ s u : State, step s = .next u → s.seq = 9 → u.resp = .ok) ∧
  (∀ s u : State, step s = .next u → s.seq = 0 → s.host = [] → u.resp = s.resp ∧ KeepsCache s u ∧ u.seq = 0) ∧
  (∀ (s u : State) (rest : List HostMove), step s = .next u → s.seq = 0 → s.host = .reset :: rest → u.resp = s.resp) ∧
  ∀ (s u : State) (c : Command) (rest : List HostMove), step s = .next u → s.seq = 0 → s.host = .command c :: rest →
    (decode c = .ok .commit → u.resp = s.resp) ∧
    (∀ i, decode c = .ok i → i ≠ .commit → u.resp = .ok) ∧
    (∀ e, decode c = .error e → u.resp = .illegal)

/-- R26: where the fault `illegalSeq` stands, the model's own for the values of `SEQ` that no run reaches (log entry 12): a
write step at 10 to 15, or at 0 where there is none, and a step of the machine at 10 to 15. -/
def Obligations.IllegalSeqStops : Prop :=
  (∀ (s : State) (n : BitVec 4), commitStep s = .fault (.illegalSeq n) ↔ s.seq = n ∧ (n = 0 ∨ 10 ≤ n.toNat)) ∧
  ∀ s : State, s.cfg.wellFormed = true → 10 ≤ s.seq.toNat → step s = .fault (.illegalSeq s.seq)
end

