-- ==== Sys2Proof/Laws/Decode.lean ====
section
/-! SUPPORT. What the decoder can answer, said once: the `op` and the zero bits of each command (R71, R77, R78). -/

namespace Sys2Proof

theorem decodeZeros_ok {w z : Reg16} {i j : Instr} (h : decodeZeros w z i = .ok j) : w &&& z = 0 ∧ j = i := by
  unfold decodeZeros at h
  split at h
  · next hz => exact ⟨hz, by simpa using h.symm⟩
  · cases h

theorem decodePos_ok {w : Reg16} {i j : Instr} (h : decodePos w i = .ok j) : w &&& 0x0EFF = 0 ∧ j = i := by
  unfold decodePos at h
  split at h
  · next hz =>
    split at h
    · cases h
    · next hb =>
      refine ⟨?_, by simpa using h.symm⟩
      have hs : (0x0EFF : Reg16) = 0x0CFF ||| BitVec.twoPow 16 9 := by decide
      rw [hs, BitVec.and_or_distrib_left, hz, BitVec.and_twoPow, if_neg hb]
      rfl
  · cases h

/-- A word decodes only as one of the nine commands, each with its own `op` and with zeros where R71 wants them. -/
theorem decode_cases {c : Command} {i : Instr} (h : decode c = .ok i) :
    ((opField c.cmd).toNat = 0x1 ∧ c.cmd &&& 0x0CFF = 0 ∧ i = .enable (tField c.cmd)) ∨
    ((opField c.cmd).toNat = 0x2 ∧ c.cmd &&& 0x0CFF = 0 ∧ i = .disable (tField c.cmd)) ∨
    ((opField c.cmd).toNat = 0x3 ∧ c.cmd &&& 0x0CFE = 0 ∧ i = .setblend (tField c.cmd) (vField c.cmd)) ∨
    ((opField c.cmd).toNat = 0x4 ∧ c.cmd &&& 0x0CFE = 0 ∧ i = .setobj (tField c.cmd) (vField c.cmd)) ∨
    ((opField c.cmd).toNat = 0x5 ∧ c.cmd &&& 0x0CCE = 0 ∧
      i = .setbg (tField c.cmd) (bgField c.cmd) (vField c.cmd)) ∨
    ((opField c.cmd).toNat = 0x6 ∧ c.cmd &&& 0x0CFF = 0 ∧ i = .reset (tField c.cmd)) ∨
    ((opField c.cmd).toNat = 0x8 ∧ c.cmd &&& 0x0EFF = 0 ∧
      i = .setposu8 (mField c.cmd) (c.arg0.extractLsb' 24 8) (c.arg0.extractLsb' 16 8) (c.arg0.extractLsb' 8 8)
        (c.arg0.extractLsb' 0 8)) ∨
    ((opField c.cmd).toNat = 0x9 ∧ c.cmd &&& 0x0EFF = 0 ∧
      i = .setpos (mField c.cmd) c.arg0 c.arg1 c.arg2 c.arg3) ∨
    ((opField c.cmd).toNat = 0xC ∧ c.cmd &&& 0x0FFF = 0 ∧ i = .commit) := by
  unfold decode at h
  dsimp only at h
  split at h <;> rename_i ho
  · have := decodeZeros_ok h; simp only [ho, this]; simp
  · have := decodeZeros_ok h; simp only [ho, this]; simp
  · have := decodeZeros_ok h; simp only [ho, this]; simp
  · have := decodeZeros_ok h; simp only [ho, this]; simp
  · have := decodeZeros_ok h; simp only [ho, this]; simp
  · have := decodeZeros_ok h; simp only [ho, this]; simp
  · have := decodePos_ok h; simp only [ho, this]; simp
  · have := decodePos_ok h; simp only [ho, this]; simp
  · have := decodeZeros_ok h; simp only [ho, this]; simp
  · cases h

/-- A bit that a zero mask covers is 0. -/
theorem bit_of_zeros {w z : Reg16} (h : w &&& z = 0) {k : Nat} (hk : z.getLsbD k = true) : w.getLsbD k = false := by
  have := congrArg (fun v : Reg16 => v.getLsbD k) h
  simpa [BitVec.getLsbD_and, hk] using this

end Sys2Proof
end

