-- ==== Sys2Proof/Laws/State.lean ====
section
/-! SUPPORT. What each update of the state does to each of its parts, so that no proof unfolds a record update. The
flag bytes and the rectangles are read through `State.wb` and `State.rect`. -/

namespace Sys2Proof.Machine

/-! `State.setReg`. -/

@[simp] theorem State.setReg_cfg (s : State) (a : Nat) (v : Reg16) :
    (s.setReg a v).cfg = s.cfg := rfl

@[simp] theorem State.setReg_wasReset (s : State) (a : Nat) (v : Reg16) :
    (s.setReg a v).wasReset = s.wasReset := rfl

@[simp] theorem State.setReg_wb (s : State) (a : Nat) (v : Reg16) (t' : Slot) :
    (s.setReg a v).wb t' = s.wb t' := by cases t' <;> rfl

@[simp] theorem State.setReg_rect (s : State) (a : Nat) (v : Reg16) (m' : Mov) :
    (s.setReg a v).rect m' = s.rect m' := by cases m' <;> rfl

@[simp] theorem State.setReg_seq (s : State) (a : Nat) (v : Reg16) :
    (s.setReg a v).seq = s.seq := rfl

@[simp] theorem State.setReg_resp (s : State) (a : Nat) (v : Reg16) :
    (s.setReg a v).resp = s.resp := rfl

@[simp] theorem State.setReg_trace (s : State) (a : Nat) (v : Reg16) :
    (s.setReg a v).trace = s.trace := rfl

@[simp] theorem State.setReg_host (s : State) (a : Nat) (v : Reg16) :
    (s.setReg a v).host = s.host := rfl

@[simp] theorem State.setReg_envTick (s : State) (a : Nat) (v : Reg16) :
    (s.setReg a v).envTick = s.envTick := rfl

/-! `State.busWrite`. -/

@[simp] theorem State.busWrite_cfg (s : State) (e : WriteEvent) :
    (s.busWrite e).cfg = s.cfg := rfl

@[simp] theorem State.busWrite_wasReset (s : State) (e : WriteEvent) :
    (s.busWrite e).wasReset = s.wasReset := rfl

@[simp] theorem State.busWrite_wb (s : State) (e : WriteEvent) (t' : Slot) :
    (s.busWrite e).wb t' = s.wb t' := by cases t' <;> rfl

@[simp] theorem State.busWrite_rect (s : State) (e : WriteEvent) (m' : Mov) :
    (s.busWrite e).rect m' = s.rect m' := by cases m' <;> rfl

@[simp] theorem State.busWrite_seq (s : State) (e : WriteEvent) :
    (s.busWrite e).seq = s.seq := rfl

@[simp] theorem State.busWrite_resp (s : State) (e : WriteEvent) :
    (s.busWrite e).resp = s.resp := rfl

@[simp] theorem State.busWrite_mem (s : State) (e : WriteEvent) :
    (s.busWrite e).mem = (s.setReg e.addr (e.merge (s.reg e.addr))).mem := rfl

@[simp] theorem State.busWrite_trace (s : State) (e : WriteEvent) :
    (s.busWrite e).trace = s.trace ++ [e] := rfl

@[simp] theorem State.busWrite_host (s : State) (e : WriteEvent) :
    (s.busWrite e).host = s.host := rfl

@[simp] theorem State.busWrite_envTick (s : State) (e : WriteEvent) :
    (s.busWrite e).envTick = s.envTick := rfl

/-! `State.setWb`. -/

@[simp] theorem State.setWb_cfg (s : State) (t : Slot) (v : Byte) :
    (s.setWb t v).cfg = s.cfg := by cases t <;> rfl

@[simp] theorem State.setWb_wasReset (s : State) (t : Slot) (v : Byte) :
    (s.setWb t v).wasReset = s.wasReset := by cases t <;> rfl

@[simp] theorem State.setWb_wb (s : State) (t : Slot) (v : Byte) (t' : Slot) :
    (s.setWb t v).wb t' = if t' = t then v else s.wb t' := by cases t <;> cases t' <;> rfl

@[simp] theorem State.setWb_rect (s : State) (t : Slot) (v : Byte) (m' : Mov) :
    (s.setWb t v).rect m' = s.rect m' := by cases t <;> rfl

@[simp] theorem State.setWb_seq (s : State) (t : Slot) (v : Byte) :
    (s.setWb t v).seq = s.seq := by cases t <;> rfl

@[simp] theorem State.setWb_resp (s : State) (t : Slot) (v : Byte) :
    (s.setWb t v).resp = s.resp := by cases t <;> rfl

@[simp] theorem State.setWb_mem (s : State) (t : Slot) (v : Byte) :
    (s.setWb t v).mem = s.mem := by cases t <;> rfl

@[simp] theorem State.setWb_trace (s : State) (t : Slot) (v : Byte) :
    (s.setWb t v).trace = s.trace := by cases t <;> rfl

@[simp] theorem State.setWb_host (s : State) (t : Slot) (v : Byte) :
    (s.setWb t v).host = s.host := by cases t <;> rfl

@[simp] theorem State.setWb_envTick (s : State) (t : Slot) (v : Byte) :
    (s.setWb t v).envTick = s.envTick := by cases t <;> rfl

/-! `State.setRect`. -/

@[simp] theorem State.setRect_cfg (s : State) (m : Mov) (r : Rect) :
    (s.setRect m r).cfg = s.cfg := by cases m <;> rfl

@[simp] theorem State.setRect_wasReset (s : State) (m : Mov) (r : Rect) :
    (s.setRect m r).wasReset = s.wasReset := by cases m <;> rfl

@[simp] theorem State.setRect_wb (s : State) (m : Mov) (r : Rect) (t' : Slot) :
    (s.setRect m r).wb t' = s.wb t' := by cases m <;> rfl

@[simp] theorem State.setRect_rect (s : State) (m : Mov) (r : Rect) (m' : Mov) :
    (s.setRect m r).rect m' = if m' = m then r else s.rect m' := by cases m <;> cases m' <;> rfl

@[simp] theorem State.setRect_seq (s : State) (m : Mov) (r : Rect) :
    (s.setRect m r).seq = s.seq := by cases m <;> rfl

@[simp] theorem State.setRect_resp (s : State) (m : Mov) (r : Rect) :
    (s.setRect m r).resp = s.resp := by cases m <;> rfl

@[simp] theorem State.setRect_mem (s : State) (m : Mov) (r : Rect) :
    (s.setRect m r).mem = s.mem := by cases m <;> rfl

@[simp] theorem State.setRect_trace (s : State) (m : Mov) (r : Rect) :
    (s.setRect m r).trace = s.trace := by cases m <;> rfl

@[simp] theorem State.setRect_host (s : State) (m : Mov) (r : Rect) :
    (s.setRect m r).host = s.host := by cases m <;> rfl

@[simp] theorem State.setRect_envTick (s : State) (m : Mov) (r : Rect) :
    (s.setRect m r).envTick = s.envTick := by cases m <;> rfl

/-! `State.setSeq`. -/

@[simp] theorem State.setSeq_cfg (s : State) (n : BitVec 4) :
    (s.setSeq n).cfg = s.cfg := rfl

@[simp] theorem State.setSeq_wasReset (s : State) (n : BitVec 4) :
    (s.setSeq n).wasReset = s.wasReset := rfl

@[simp] theorem State.setSeq_wb (s : State) (n : BitVec 4) (t' : Slot) :
    (s.setSeq n).wb t' = s.wb t' := by cases t' <;> rfl

@[simp] theorem State.setSeq_rect (s : State) (n : BitVec 4) (m' : Mov) :
    (s.setSeq n).rect m' = s.rect m' := by cases m' <;> rfl

@[simp] theorem State.setSeq_seq (s : State) (n : BitVec 4) :
    (s.setSeq n).seq = n := rfl

@[simp] theorem State.setSeq_resp (s : State) (n : BitVec 4) :
    (s.setSeq n).resp = s.resp := rfl

@[simp] theorem State.setSeq_mem (s : State) (n : BitVec 4) :
    (s.setSeq n).mem = s.mem := rfl

@[simp] theorem State.setSeq_trace (s : State) (n : BitVec 4) :
    (s.setSeq n).trace = s.trace := rfl

@[simp] theorem State.setSeq_host (s : State) (n : BitVec 4) :
    (s.setSeq n).host = s.host := rfl

@[simp] theorem State.setSeq_envTick (s : State) (n : BitVec 4) :
    (s.setSeq n).envTick = s.envTick := rfl

/-! `State.respond`. -/

@[simp] theorem State.respond_cfg (s : State) (r : Resp) :
    (s.respond r).cfg = s.cfg := rfl

@[simp] theorem State.respond_wasReset (s : State) (r : Resp) :
    (s.respond r).wasReset = s.wasReset := rfl

@[simp] theorem State.respond_wb (s : State) (r : Resp) (t' : Slot) :
    (s.respond r).wb t' = s.wb t' := by cases t' <;> rfl

@[simp] theorem State.respond_rect (s : State) (r : Resp) (m' : Mov) :
    (s.respond r).rect m' = s.rect m' := by cases m' <;> rfl

@[simp] theorem State.respond_seq (s : State) (r : Resp) :
    (s.respond r).seq = s.seq := rfl

@[simp] theorem State.respond_resp (s : State) (r : Resp) :
    (s.respond r).resp = r := rfl

@[simp] theorem State.respond_mem (s : State) (r : Resp) :
    (s.respond r).mem = s.mem := rfl

@[simp] theorem State.respond_trace (s : State) (r : Resp) :
    (s.respond r).trace = s.trace := rfl

@[simp] theorem State.respond_host (s : State) (r : Resp) :
    (s.respond r).host = s.host := rfl

@[simp] theorem State.respond_envTick (s : State) (r : Resp) :
    (s.respond r).envTick = s.envTick := rfl

/-! `State.setFlag`. -/

@[simp] theorem State.setFlag_cfg (s : State) (t : Slot) (bit : Nat) (v : Bool) :
    (s.setFlag t bit v).cfg = s.cfg := by cases t <;> rfl

@[simp] theorem State.setFlag_wasReset (s : State) (t : Slot) (bit : Nat) (v : Bool) :
    (s.setFlag t bit v).wasReset = s.wasReset := by cases t <;> rfl

@[simp] theorem State.setFlag_wb (s : State) (t : Slot) (bit : Nat) (v : Bool) (t' : Slot) :
    (s.setFlag t bit v).wb t' = if t' = t then setBit (s.wb t) bit v else s.wb t' := by cases t <;> cases t' <;> rfl

@[simp] theorem State.setFlag_rect (s : State) (t : Slot) (bit : Nat) (v : Bool) (m' : Mov) :
    (s.setFlag t bit v).rect m' = s.rect m' := by cases t <;> rfl

@[simp] theorem State.setFlag_seq (s : State) (t : Slot) (bit : Nat) (v : Bool) :
    (s.setFlag t bit v).seq = s.seq := by cases t <;> rfl

@[simp] theorem State.setFlag_resp (s : State) (t : Slot) (bit : Nat) (v : Bool) :
    (s.setFlag t bit v).resp = .ok := by cases t <;> rfl

@[simp] theorem State.setFlag_mem (s : State) (t : Slot) (bit : Nat) (v : Bool) :
    (s.setFlag t bit v).mem = s.mem := by cases t <;> rfl

@[simp] theorem State.setFlag_trace (s : State) (t : Slot) (bit : Nat) (v : Bool) :
    (s.setFlag t bit v).trace = s.trace := by cases t <;> rfl

@[simp] theorem State.setFlag_host (s : State) (t : Slot) (bit : Nat) (v : Bool) :
    (s.setFlag t bit v).host = s.host := by cases t <;> rfl

@[simp] theorem State.setFlag_envTick (s : State) (t : Slot) (bit : Nat) (v : Bool) :
    (s.setFlag t bit v).envTick = s.envTick := by cases t <;> rfl

/-! `State.takeHost`. -/

@[simp] theorem State.takeHost_cfg (s : State) :
    s.takeHost.cfg = s.cfg := rfl

@[simp] theorem State.takeHost_wasReset (s : State) :
    s.takeHost.wasReset = s.wasReset := rfl

@[simp] theorem State.takeHost_wb (s : State) (t' : Slot) :
    s.takeHost.wb t' = s.wb t' := by cases t' <;> rfl

@[simp] theorem State.takeHost_rect (s : State) (m' : Mov) :
    s.takeHost.rect m' = s.rect m' := by cases m' <;> rfl

@[simp] theorem State.takeHost_seq (s : State) :
    s.takeHost.seq = s.seq := rfl

@[simp] theorem State.takeHost_resp (s : State) :
    s.takeHost.resp = s.resp := rfl

@[simp] theorem State.takeHost_mem (s : State) :
    s.takeHost.mem = s.mem := rfl

@[simp] theorem State.takeHost_trace (s : State) :
    s.takeHost.trace = s.trace := rfl

@[simp] theorem State.takeHost_host (s : State) :
    s.takeHost.host = s.host.tail := rfl

@[simp] theorem State.takeHost_envTick (s : State) :
    s.takeHost.envTick = s.envTick := rfl

/-! `State.startReset`. -/

@[simp] theorem State.startReset_cfg (s : State) :
    s.startReset.cfg = s.cfg := rfl

@[simp] theorem State.startReset_wasReset (s : State) :
    s.startReset.wasReset = true := rfl

@[simp] theorem State.startReset_wb (s : State) (t' : Slot) :
    s.startReset.wb t' = 0 := by cases t' <;> rfl

@[simp] theorem State.startReset_rect (s : State) (m' : Mov) :
    s.startReset.rect m' = ⟨0, 0, 0, 0⟩ := by cases m' <;> rfl

@[simp] theorem State.startReset_seq (s : State) :
    s.startReset.seq = 1 := rfl

@[simp] theorem State.startReset_resp (s : State) :
    s.startReset.resp = s.resp := rfl

@[simp] theorem State.startReset_mem (s : State) :
    s.startReset.mem = s.mem := rfl

@[simp] theorem State.startReset_trace (s : State) :
    s.startReset.trace = s.trace := rfl

@[simp] theorem State.startReset_host (s : State) :
    s.startReset.host = s.host := rfl

@[simp] theorem State.startReset_envTick (s : State) :
    s.startReset.envTick = s.envTick := rfl

/-! `State.envMove`. -/

@[simp] theorem State.envMove_cfg (s : State) :
    s.envMove.cfg = s.cfg := rfl

@[simp] theorem State.envMove_wasReset (s : State) :
    s.envMove.wasReset = s.wasReset := rfl

@[simp] theorem State.envMove_wb (s : State) (t' : Slot) :
    s.envMove.wb t' = s.wb t' := by cases t' <;> rfl

@[simp] theorem State.envMove_rect (s : State) (m' : Mov) :
    s.envMove.rect m' = s.rect m' := by cases m' <;> rfl

@[simp] theorem State.envMove_seq (s : State) :
    s.envMove.seq = s.seq := rfl

@[simp] theorem State.envMove_resp (s : State) :
    s.envMove.resp = s.resp := rfl

@[simp] theorem State.envMove_trace (s : State) :
    s.envMove.trace = s.trace := rfl

@[simp] theorem State.envMove_host (s : State) :
    s.envMove.host = s.host := rfl

@[simp] theorem State.envMove_envTick (s : State) :
    s.envMove.envTick = s.envTick + 1 := rfl

/-! `State.advance`. -/

@[simp] theorem State.advance_cfg (s : State) :
    s.advance.cfg = s.cfg := by unfold State.advance; split <;> rfl

@[simp] theorem State.advance_wasReset (s : State) :
    s.advance.wasReset = s.wasReset := by unfold State.advance; split <;> rfl

@[simp] theorem State.advance_wb (s : State) (t' : Slot) :
    s.advance.wb t' = s.wb t' := by unfold State.advance; split <;> rfl

@[simp] theorem State.advance_rect (s : State) (m' : Mov) :
    s.advance.rect m' = s.rect m' := by unfold State.advance; split <;> rfl

@[simp] theorem State.advance_seq (s : State) :
    s.advance.seq = if s.seq = 9 then 0 else s.seq + 1 := by unfold State.advance; split <;> rfl

@[simp] theorem State.advance_resp (s : State) :
    s.advance.resp = if s.seq = 9 then .ok else s.resp := by unfold State.advance; split <;> rfl

@[simp] theorem State.advance_mem (s : State) :
    s.advance.mem = s.mem := by unfold State.advance; split <;> rfl

@[simp] theorem State.advance_trace (s : State) :
    s.advance.trace = s.trace := by unfold State.advance; split <;> rfl

@[simp] theorem State.advance_host (s : State) :
    s.advance.host = s.host := by unfold State.advance; split <;> rfl

@[simp] theorem State.advance_envTick (s : State) :
    s.advance.envTick = s.envTick := by unfold State.advance; split <;> rfl

end Sys2Proof.Machine
end

