-- ==== Sys2Proof/Laws/Memory.lean ====
section
/-! SUPPORT. Memory and registers: a read after a write, what a write leaves alone, and that every operation keeps the
canonical form. -/

namespace Sys2Proof.Machine

theorem Memory.wf_cons {a : Nat} {v : Byte} {r : Memory} :
    Memory.wf ((a, v) :: r) = true ↔ v ≠ 0 ∧ (∀ c ∈ r, a < c.1) ∧ Memory.wf r = true := by
  simp [Memory.wf, and_assoc]

/-- A byte below every listed address reads as zero. -/
theorem Memory.readByte_below {m : Memory} {a : Nat} (h : ∀ c ∈ m, a < c.1) : m.readByte a = 0 := by
  induction m with
  | nil => rfl
  | cons c r ih =>
    obtain ⟨b, v⟩ := c
    have hb : a < b := h (b, v) (by simp)
    simp only [Memory.readByte, if_neg (Nat.ne_of_gt hb)]
    exact ih fun c hc => h c (by simp [hc])

theorem Memory.readByte_writeByte_ne {m : Memory} {a a' : Nat} (v : Byte) (h : a' ≠ a) :
    (m.writeByte a v).readByte a' = m.readByte a' := by
  induction m with
  | nil => simp only [Memory.writeByte]; split <;> simp [Memory.readByte, h.symm]
  | cons c r ih =>
    obtain ⟨b, w⟩ := c
    simp only [Memory.writeByte]
    split
    · split <;> simp [Memory.readByte, h.symm]
    · split
      · next hab => subst hab; split <;> simp [Memory.readByte, h.symm]
      · simp only [Memory.readByte, ih]

theorem Memory.readByte_writeByte_same {m : Memory} (hm : m.wf = true) (a : Nat) (v : Byte) :
    (m.writeByte a v).readByte a = v := by
  induction m with
  | nil => simp only [Memory.writeByte]; split <;> simp_all [Memory.readByte]
  | cons c r ih =>
    obtain ⟨b, w⟩ := c
    obtain ⟨hw, hlt, hr⟩ := Memory.wf_cons.1 hm
    simp only [Memory.writeByte]
    split
    · next hab =>
      split
      · next hv =>
        subst hv
        exact Memory.readByte_below fun c hc => by
          rcases List.mem_cons.1 hc with rfl | hc
          · exact hab
          · exact Nat.lt_trans hab (hlt c hc)
      · simp [Memory.readByte]
    · split
      · next hab =>
        subst hab
        split
        · next hv => subst hv; exact Memory.readByte_below hlt
        · simp [Memory.readByte]
      · next hab => simp only [Memory.readByte, if_neg (Ne.symm hab), ih hr]

theorem Memory.mem_writeByte {m : Memory} {a : Nat} {v : Byte} {c : Host.Cell} (h : c ∈ m.writeByte a v) :
    c = (a, v) ∨ c ∈ m := by
  induction m with
  | nil => simp only [Memory.writeByte] at h; split at h <;> simp_all
  | cons d r ih =>
    obtain ⟨b, w⟩ := d
    simp only [Memory.writeByte] at h
    split at h
    · split at h
      · exact .inr h
      · simpa using h
    · split at h
      · split at h
        · exact .inr (by simp [h])
        · rcases List.mem_cons.1 h with h | h
          · exact .inl h
          · exact .inr (by simp [h])
      · rcases List.mem_cons.1 h with h | h
        · exact .inr (by simp [h])
        · rcases ih h with h | h
          · exact .inl h
          · exact .inr (by simp [h])

theorem Memory.wf_writeByte {m : Memory} (hm : m.wf = true) (a : Nat) (v : Byte) : (m.writeByte a v).wf = true := by
  induction m with
  | nil => simp only [Memory.writeByte]; split <;> simp_all [Memory.wf]
  | cons c r ih =>
    obtain ⟨b, w⟩ := c
    obtain ⟨hw, hlt, hr⟩ := Memory.wf_cons.1 hm
    simp only [Memory.writeByte]
    split
    · next hab =>
      split
      · exact hm
      · next hv =>
        refine Memory.wf_cons.2 ⟨hv, fun c hc => ?_, hm⟩
        rcases List.mem_cons.1 hc with rfl | hc
        · exact hab
        · exact Nat.lt_trans hab (hlt c hc)
    · split
      · next hab =>
        subst hab
        split
        · exact hr
        · next hv => exact Memory.wf_cons.2 ⟨hv, hlt, hr⟩
      · next hna hab =>
        refine Memory.wf_cons.2 ⟨hw, fun c hc => ?_, ih hr⟩
        rcases Memory.mem_writeByte hc with rfl | hc
        · exact Nat.lt_of_le_of_ne (Nat.le_of_not_lt hna) (Ne.symm hab)
        · exact hlt c hc

/-! Registers. -/

theorem State.setReg_mem_wf {s : State} (h : s.mem.wf = true) (a : Nat) (v : Reg16) : (s.setReg a v).mem.wf = true :=
  Memory.wf_writeByte (Memory.wf_writeByte h _ _) _ _

theorem State.reg_setReg_same {s : State} (h : s.mem.wf = true) (a : Nat) (v : Reg16) : (s.setReg a v).reg a = v := by
  have hlow := Memory.wf_writeByte h (regAddr s.cfg a) (v.extractLsb' 0 8)
  simp only [State.reg, State.setReg, Memory.readByte_writeByte_same hlow]
  rw [Memory.readByte_writeByte_ne _ (by omega), Memory.readByte_writeByte_same h]
  ext k hk
  simp only [BitVec.getElem_append, BitVec.getElem_extractLsb']
  split
  · simp [BitVec.getLsbD_eq_getElem hk]
  · next hk8 => rw [Nat.add_sub_cancel' (Nat.le_of_not_lt hk8), BitVec.getLsbD_eq_getElem hk]

/-- A register write leaves every byte of another register's address alone. -/
theorem State.readByte_setReg_ne {s : State} {a x : Nat} (v : Reg16) (h0 : x ≠ regAddr s.cfg a)
    (h1 : x ≠ regAddr s.cfg a + 1) : (s.setReg a v).mem.readByte x = s.mem.readByte x := by
  simp only [State.setReg]
  rw [Memory.readByte_writeByte_ne _ h1, Memory.readByte_writeByte_ne _ h0]

theorem State.reg_setReg_ne {s : State} {a b : Nat} (v : Reg16) (h : b ≠ a) : (s.setReg a v).reg b = s.reg b := by
  have hc : (s.setReg a v).cfg = s.cfg := rfl
  simp only [State.reg, hc]
  rw [State.readByte_setReg_ne v (by unfold regAddr; omega) (by unfold regAddr; omega),
    State.readByte_setReg_ne v (by unfold regAddr; omega) (by unfold regAddr; omega)]

/-- Registers depend on the parameters and the target register space only. -/
theorem State.reg_congr {s u : State} (hc : u.cfg = s.cfg) (hm : u.mem = s.mem) (a : Nat) : u.reg a = s.reg a := by
  simp only [State.reg, hc, hm]

@[simp] theorem State.setSeq_reg (s : State) (n : BitVec 4) (a : Nat) : (s.setSeq n).reg a = s.reg a := rfl

@[simp] theorem State.respond_reg (s : State) (r : Resp) (a : Nat) : (s.respond r).reg a = s.reg a := rfl

@[simp] theorem State.takeHost_reg (s : State) (a : Nat) : s.takeHost.reg a = s.reg a := rfl

@[simp] theorem State.startReset_reg (s : State) (a : Nat) : s.startReset.reg a = s.reg a := rfl

@[simp] theorem State.setWb_reg (s : State) (t : Slot) (v : Byte) (a : Nat) : (s.setWb t v).reg a = s.reg a :=
  State.reg_congr (by simp) (by simp) a

@[simp] theorem State.setRect_reg (s : State) (m : Mov) (r : Rect) (a : Nat) : (s.setRect m r).reg a = s.reg a :=
  State.reg_congr (by simp) (by simp) a

@[simp] theorem State.setFlag_reg (s : State) (t : Slot) (bit : Nat) (v : Bool) (a : Nat) :
    (s.setFlag t bit v).reg a = s.reg a :=
  State.reg_congr (by simp) (by simp) a

@[simp] theorem State.advance_reg (s : State) (a : Nat) : s.advance.reg a = s.reg a :=
  State.reg_congr (by simp) (by simp) a

/-- One transaction's effect on every register (R53). -/
theorem State.busWrite_reg {s : State} (h : s.mem.wf = true) (e : WriteEvent) (a : Nat) :
    (s.busWrite e).reg a = if a = e.addr then e.merge (s.reg a) else s.reg a := by
  have hr : (s.busWrite e).reg a = (s.setReg e.addr (e.merge (s.reg e.addr))).reg a := rfl
  rw [hr]
  split
  · next ha => subst ha; exact State.reg_setReg_same h _ _
  · next ha => exact State.reg_setReg_ne _ ha

theorem State.busWrite_mem_wf {s : State} (h : s.mem.wf = true) (e : WriteEvent) : (s.busWrite e).mem.wf = true :=
  State.setReg_mem_wf h _ _

/-- The merge of R53, bit by bit: the mask chooses between the data and the old value. -/
theorem WriteEvent.merge_bit (e : WriteEvent) (old : Reg16) {k : Nat} (hk : k < 16) :
    (e.merge old).getLsbD k = if e.mask.getLsbD k then e.data.getLsbD k else old.getLsbD k := by
  simp only [BitVec.getLsbD_eq_getElem hk]
  cases h : e.mask[k] <;> simp [WriteEvent.merge, h]

/-- The environment's turn leaves every register but `DISPCNT`, and `DISPCNT[15:13]`, alone (R37). -/
theorem State.envMove_reg {s : State} (h : s.mem.wf = true) {a k : Nat} (hk : k < 16)
    (ha : a ≠ s.cfg.dispcntAddr ∨ 13 ≤ k) : (s.envMove.reg a).getLsbD k = (s.reg a).getLsbD k := by
  have hr : s.envMove.reg a = (s.setReg s.cfg.dispcntAddr
      ((s.reg s.cfg.dispcntAddr).extractLsb' 13 3 ++
        Config.envDraw s.envTick ((s.reg s.cfg.dispcntAddr).extractLsb' 0 13))).reg a := rfl
  rw [hr]
  by_cases hd : a = s.cfg.dispcntAddr
  · subst hd
    have hk13 : 13 ≤ k := ha.resolve_left (fun h => h rfl)
    rw [State.reg_setReg_same h]
    simp only [BitVec.getLsbD_append, BitVec.getLsbD_extractLsb', if_neg (Nat.not_lt.2 hk13)]
    rw [Nat.add_sub_cancel' hk13]
    simp [show k - 13 < 3 by omega]
  · rw [State.reg_setReg_ne _ hd]

/-- The environment's turn leaves every byte outside `DISPCNT` alone (R37). -/
theorem State.envMove_readByte {s : State} {x : Nat} (h0 : x ≠ regAddr s.cfg s.cfg.dispcntAddr)
    (h1 : x ≠ regAddr s.cfg s.cfg.dispcntAddr + 1) : s.envMove.mem.readByte x = s.mem.readByte x :=
  State.readByte_setReg_ne _ h0 h1

theorem State.envMove_mem_wf {s : State} (h : s.mem.wf = true) : s.envMove.mem.wf = true :=
  State.setReg_mem_wf h _ _

end Sys2Proof.Machine
end

