-- ==== Sys2Proof/Laws/Exec.lean ====
section
/-! SUPPORT. What the shared operations, a command, a write step and a step of the machine can do, said once: the
provers cite these instead of unfolding. -/

namespace Sys2Proof.Machine

/-- `SetBit` bit by bit (R9): bit `i` becomes `v`, every other bit is kept. -/
theorem setBit_bit (b : Byte) {i : Nat} (v : Bool) (hi : i < 8) (k : Nat) :
    (setBit b i v).getLsbD k = if k = i then v else b.getLsbD k := by
  have hone : ((1 : Byte) <<< i).getLsbD k = decide (k = i) := by
    rw [BitVec.getLsbD_shiftLeft]
    by_cases hki : k = i
    · subst hki; simp [hi]
    · by_cases hlt : k < i <;> simp [hki] <;> omega
  have hv : ((if v then (1 : Byte) else 0) <<< i).getLsbD k = (v && decide (k = i)) := by
    cases v
    · simp
    · simpa using hone
  unfold setBit
  rw [BitVec.getLsbD_or, hv, BitVec.getLsbD_and, BitVec.getLsbD_not, hone]
  by_cases hki : k = i
  · subst hki; simp
  · by_cases hk8 : k < 8
    · simp [hki, hk8]
    · simp [hki, hk8, BitVec.getLsbD_of_ge b k (by omega)]

theorem State.en_setFlag (s : State) {t : Slot} {bit : Nat} {v : Bool} (h : bit < 8) (t' : Slot) :
    (s.setFlag t bit v).en t' = if t' = t ∧ bit = 7 then v else s.en t' := by
  simp only [State.en, State.setFlag_wb, bitEN]
  by_cases ht : t' = t
  · subst ht
    rw [if_pos rfl, setBit_bit _ _ h]
    simp only [true_and, eq_comm]
  · rw [if_neg ht, if_neg (fun hc => ht hc.1)]

@[simp] theorem State.setReg_en (s : State) (a : Nat) (v : Reg16) (t : Slot) : (s.setReg a v).en t = s.en t := by
  simp [State.en]

@[simp] theorem State.envMove_en (s : State) (t : Slot) : s.envMove.en t = s.en t := by simp [State.en]

@[simp] theorem State.busWrite_en (s : State) (e : WriteEvent) (t : Slot) : (s.busWrite e).en t = s.en t := by
  simp [State.en]

@[simp] theorem State.advance_en (s : State) (t : Slot) : s.advance.en t = s.en t := by simp [State.en]

@[simp] theorem State.setRect_en (s : State) (m : Mov) (r : Rect) (t : Slot) : (s.setRect m r).en t = s.en t := by
  simp [State.en]

@[simp] theorem State.respond_en (s : State) (r : Resp) (t : Slot) : (s.respond r).en t = s.en t := by simp [State.en]

@[simp] theorem State.setSeq_en (s : State) (n : BitVec 4) (t : Slot) : (s.setSeq n).en t = s.en t := by
  simp [State.en]

/-- `en_status` bit by bit (R27). -/
theorem State.enStatus_bit (s : State) (t : Slot) : s.enStatus.getLsbD t.id = s.en t := by
  cases t <;> simp only [State.enStatus, Slot.id] <;> generalize s.en .win0 = a <;> generalize s.en .win1 = b <;>
    generalize s.en .out = c <;> generalize s.en .obj = d <;> revert a b c d <;> decide

/-- The byte of an edge is its sum modulo 256 (R125). -/
theorem edgeByte_eq_add (pos size : Byte) : edgeByte pos size = pos + size := by
  apply BitVec.eq_of_toNat_eq; simp [edgeByte]

/-- An edge has a value exactly when it fits or `EDGE_OVF` is `wrap8`, and then it is the low byte of the sum (R125). -/
theorem edge_eq (ovf : EdgeOvf) (pos size : Byte) :
    edge ovf pos size =
      if ovf = .wrap8 ∨ pos.toNat + size.toNat ≤ 255 then some (edgeByte pos size) else none := by
  rw [edgeByte_eq_add]
  cases ovf <;> simp [edge]

/-- An extent step's transaction, or its fault (R124, R125). -/
theorem extentEvent_eq (s : State) (m : Mov) (a : Nat) (pos size : Byte) :
    extentEvent s m a pos size =
      if s.cfg.edgeOvf = .wrap8 ∨ pos.toNat + size.toNat ≤ 255 then .ok ⟨a, 0xFFFF, pos ++ edgeByte pos size⟩
      else .error (.edgeOverflow m s.seq) := by
  unfold extentEvent
  rw [edge_eq]
  by_cases h : s.cfg.edgeOvf = .wrap8 ∨ pos.toNat + size.toNat ≤ 255
  · simp only [if_pos h]
    congr 1
    simp [memWrite, fieldWrite]
  · simp only [if_neg h]

/-- A control-byte step's transaction (R107). -/
theorem controlEvent_eq (s : State) (t : Slot) :
    stepEvent s (.control t) =
      .ok ⟨s.cfg.winctlBase + t.id / 2, (0x00FF : Reg16) <<< ((t.id % 2) * 8),
        (s.wb t).setWidth 16 <<< ((t.id % 2) * 8)⟩ := rfl

/-- The summary step's transaction (R145). -/
theorem summaryEvent_eq (s : State) :
    stepEvent s .summary = .ok ⟨s.cfg.dispcntAddr, 0xE000, s.summary ++ (0 : BitVec 13)⟩ := by
  have h : ∀ v : BitVec 3, v.setWidth 16 <<< 13 = v ++ (0 : BitVec 13) := by decide
  simp only [stepEvent, fieldWrite, h]
  rfl

/-- A write step that ends in a next state is its transaction and the advance of `SEQ` (R147). -/
theorem commitStep_next {s u : State} (h : commitStep s = .next u) :
    ∃ op e, seqOp s.seq = some op ∧ stepEvent s op = .ok e ∧ u = (s.busWrite e).advance := by
  unfold commitStep at h
  split at h
  · cases h
  · next op hop =>
    split at h
    · cases h
    · next e he => exact ⟨op, e, hop, he, by simpa using h.symm⟩

theorem commitStep_of_event {s : State} {op : SeqOp} {e : WriteEvent} (ho : seqOp s.seq = some op)
    (he : stepEvent s op = .ok e) : commitStep s = .next (s.busWrite e).advance := by
  simp only [commitStep, ho, he]

/-- Every transaction's address is one of the seven indices, and its data is 0 outside its mask (R50, R52). -/
theorem stepEvent_shape {s : State} {op : SeqOp} {e : WriteEvent} (h : stepEvent s op = .ok e) :
    e.addr ∈ s.cfg.indices ∧ e.data &&& ~~~e.mask = 0 := by
  cases op with
  | control t =>
    rw [controlEvent_eq] at h
    cases h
    refine ⟨by cases t <;> simp [Config.indices, Slot.id], ?_⟩
    generalize s.wb t = v
    cases t <;> ext k hk <;> simp [Slot.id] <;> interval_cases k <;> simp
  | horizontal m =>
    simp only [stepEvent, extentEvent_eq] at h
    split at h
    · cases h; exact ⟨by cases m <;> simp [Config.indices, winhIndex, Mov.id], by simp⟩
    · cases h
  | vertical m =>
    simp only [stepEvent, extentEvent_eq] at h
    split at h
    · cases h; exact ⟨by cases m <;> simp [Config.indices, winvIndex, Mov.id], by simp⟩
    · cases h
  | summary =>
    rw [summaryEvent_eq] at h
    cases h
    have h : ∀ v : BitVec 3, (v ++ (0 : BitVec 13)) &&& ~~~(0xE000 : Reg16) = 0 := by decide
    exact ⟨by simp [Config.indices], h _⟩

/-- A command that ends in a next state leaves everything outside the cache, `resp` and `SEQ` as it was. -/
theorem exec_frame {i : Instr} {s u : State} (h : exec i s = .next u) :
    u.cfg = s.cfg ∧ u.wasReset = s.wasReset ∧ u.host = s.host ∧ u.envTick = s.envTick ∧ u.trace = s.trace ∧
      u.mem = s.mem := by
  cases i <;>
    simp only [exec, execEnable, execDisable, execSetblend, execSetobj, execSetbg, execReset, execSetposu8, execSetpos,
      execCommit, Host.Outcome.next.injEq] at h <;>
    subst h <;> simp

/-- What an idle block's turn can do (R58, R163, R180, R183). -/
theorem takeMove_next {s u : State} (h : takeMove s = .next u) :
    (s.host = [] ∧ u = s) ∨ (∃ rest, s.host = .reset :: rest ∧ u = s.takeHost.startReset) ∨
    (∃ c rest, s.host = .command c :: rest ∧ s.wasReset = true ∧
      ((∃ i, decode c = .ok i ∧ exec i s.takeHost = .next u) ∨
       (∃ e, decode c = .error e ∧ u = s.takeHost.raiseIllegal))) := by
  unfold takeMove at h
  split at h
  · next hh => exact .inl ⟨hh, by simpa using h.symm⟩
  · next rest hh => exact .inr (.inl ⟨rest, hh, by simpa using h.symm⟩)
  · next c rest hh =>
    refine .inr (.inr ⟨c, rest, hh, ?_⟩)
    split at h
    · next hw =>
      refine ⟨hw, ?_⟩
      unfold takeCommand at h
      split at h
      · next i hi => exact .inl ⟨i, hi, h⟩
      · next e he => exact .inr ⟨e, he, by simpa using h.symm⟩
    · cases h

theorem State.cmdReady_iff (s : State) : s.cmdReady = true ↔ s.seq = 0 := by simp [State.cmdReady]

/-- What a step can do: the parameters meet R7, and after the environment's turn the idle block takes a move, the busy
block performs a write step. -/
theorem step_next {s u : State} (h : step s = .next u) :
    s.cfg.wellFormed = true ∧
      ((s.seq = 0 ∧ takeMove s.envMove = .next u) ∨ (s.seq ≠ 0 ∧ commitStep s.envMove = .next u)) := by
  unfold step cycle at h
  split at h
  · next hw =>
    refine ⟨hw, ?_⟩
    unfold blockStep at h
    split at h
    · next hr => exact .inl ⟨by simpa [State.cmdReady] using hr, h⟩
    · next hr => exact .inr ⟨by simpa [State.cmdReady] using hr, h⟩
  · cases h

/-- A step of a busy block is a write step after the environment's turn. -/
theorem step_busy {s : State} (hw : s.cfg.wellFormed = true) (h : s.seq ≠ 0) : step s = commitStep s.envMove := by
  have hr : ¬ s.envMove.cmdReady = true := by simpa [State.cmdReady] using h
  simp only [step, cycle, hw, if_true, blockStep, if_neg hr]

/-- A step of an idle block takes a move after the environment's turn. -/
theorem step_idle {s : State} (hw : s.cfg.wellFormed = true) (h : s.seq = 0) : step s = takeMove s.envMove := by
  simp [step, cycle, hw, blockStep, State.cmdReady, h]

end Sys2Proof.Machine
end

