-- ==== Sys2Proof/Laws/PerInstr.lean ====
section
/-! SUPPORT. Statements made instruction by instruction. `EncodesRow`: the encoder's word of an instruction lies in the
row of the opcode map that bears its mnemonic (R78). -/

namespace Sys2Proof.Laws.EncodesRow

/-- The encoded word satisfies the mask and match of the instruction's own row. -/
def Statement (i : Instr) : Prop :=
  ∃ r ∈ opcodeTable, r.mnemonic = i.mnemonic ∧ r.covers (encode i).cmd = true

theorem enable (t : Slot) : Statement (.enable t) := ⟨⟨"ENABLE", 0x1000, 0xFCFF⟩, by decide, rfl, by cases t <;> decide⟩

theorem disable (t : Slot) : Statement (.disable t) :=
  ⟨⟨"DISABLE", 0x2000, 0xFCFF⟩, by decide, rfl, by cases t <;> decide⟩

theorem setblend (t : Slot) (v : Bool) : Statement (.setblend t v) :=
  ⟨⟨"SETBLEND", 0x3000, 0xFCFE⟩, by decide, rfl, by cases t <;> cases v <;> decide⟩

theorem setobj (t : Slot) (v : Bool) : Statement (.setobj t v) :=
  ⟨⟨"SETOBJ", 0x4000, 0xFCFE⟩, by decide, rfl, by cases t <;> cases v <;> decide⟩

theorem setbg (t : Slot) (bg : BitVec 2) (v : Bool) : Statement (.setbg t bg v) :=
  ⟨⟨"SETBG", 0x5000, 0xFCCE⟩, by decide, rfl, by cases t <;> cases v <;> revert bg <;> decide⟩

theorem reset (t : Slot) : Statement (.reset t) := ⟨⟨"RESET", 0x6000, 0xFCFF⟩, by decide, rfl, by cases t <;> decide⟩

theorem setposu8 (m : Mov) (x y w h : Byte) : Statement (.setposu8 m x y w h) :=
  ⟨⟨"SETPOSU8", 0x8000, 0xFEFF⟩, by decide, rfl, by simp only [encode]; cases m <;> decide⟩

theorem setpos (m : Mov) (x y w h : Arg32) : Statement (.setpos m x y w h) :=
  ⟨⟨"SETPOS", 0x9000, 0xFEFF⟩, by decide, rfl, by simp only [encode]; cases m <;> decide⟩

theorem commit : Statement .commit := ⟨⟨"COMMIT", 0xC000, 0xFFFF⟩, by decide, rfl, by decide⟩

end Sys2Proof.Laws.EncodesRow
end

