-- ==== Sys2Proof/Laws/Run.lean ====
section
/-! SUPPORT. A commit along a run of steps: what each write step makes of the registers, the environment's turns
between them included. -/

namespace Sys2Proof.Machine

/-- A full-register write leaves nothing of the old value. -/
theorem WriteEvent.merge_full (a : Nat) (v old : Reg16) : WriteEvent.merge ⟨a, 0xFFFF, v⟩ old = v := by
  apply BitVec.eq_of_getLsbD_eq
  intro k hk
  rw [WriteEvent.merge_bit _ _ hk, if_pos]
  interval_cases k <;> simp

/-- The two byte writes of a control register leave nothing of the old value. -/
theorem WriteEvent.merge_halves (a b : Nat) (lo hi : Byte) (old : Reg16) :
    WriteEvent.merge ⟨b, 0xFF00, hi ++ (0 : Byte)⟩ (WriteEvent.merge ⟨a, 0x00FF, lo.setWidth 16⟩ old) = hi ++ lo := by
  apply BitVec.eq_of_getLsbD_eq
  intro k hk
  rw [WriteEvent.merge_bit _ _ hk, WriteEvent.merge_bit _ _ hk, BitVec.getLsbD_append, BitVec.getLsbD_append]
  interval_cases k <;> simp

/-- One transaction's effect on a table of registers. -/
def WriteEvent.onRegs (regs : Nat → Reg16) (e : WriteEvent) (a : Nat) : Reg16 :=
  if a = e.addr then e.merge (regs a) else regs a

/-- Memory is canonical and the registers are those of the table, `DISPCNT[12:0]` aside. -/
structure RegsAre (t : State) (regs : Nat → Reg16) : Prop where
  wf   : t.mem.wf = true
  bits : ∀ a k, k < 16 → (a ≠ t.cfg.dispcntAddr ∨ 13 ≤ k) → (t.reg a).getLsbD k = (regs a).getLsbD k

theorem RegsAre.envMove {t : State} {regs : Nat → Reg16} (h : RegsAre t regs) : RegsAre t.envMove regs :=
  ⟨State.envMove_mem_wf h.wf, fun a k hk ha => (State.envMove_reg h.wf hk ha).trans (h.bits a k hk ha)⟩

theorem RegsAre.write {t : State} {regs : Nat → Reg16} (h : RegsAre t regs) (e : WriteEvent) :
    RegsAre (t.busWrite e).advance (e.onRegs regs) := by
  refine ⟨by rw [State.advance_mem]; exact State.busWrite_mem_wf h.wf e, fun a k hk ha => ?_⟩
  have hbits := h.bits a k hk (by simpa using ha)
  rw [State.advance_reg, State.busWrite_reg h.wf]
  unfold WriteEvent.onRegs
  split
  · rw [WriteEvent.merge_bit _ _ hk, WriteEvent.merge_bit _ _ hk, hbits]
  · exact hbits

/-- A write step's transaction depends on the cache and the parameters alone. -/
theorem stepEvent_congr {s t : State} (hc : t.cfg = s.cfg) (hw : ∀ x, t.wb x = s.wb x) (hr : ∀ m, t.rect m = s.rect m)
    {op : SeqOp} {e : WriteEvent} (h : stepEvent s op = .ok e) : stepEvent t op = .ok e := by
  cases op with
  | control x => simpa [stepEvent, hc, hw] using h
  | summary => simpa [stepEvent, State.summary, State.en, hc, hw] using h
  | horizontal m =>
    simp only [stepEvent, extentEvent_eq, hc, hr, winhIndex] at h ⊢
    split at h
    · next hh => rw [if_pos hh]; exact h
    · cases h
  | vertical m =>
    simp only [stepEvent, extentEvent_eq, hc, hr, winvIndex] at h ⊢
    split at h
    · next hh => rw [if_pos hh]; exact h
    · cases h

/-- A run's first step, when it answers a next state. -/
theorem stepN_of_next {k : Nat} {s u : State} (h : step s = .next u) : stepN (k + 1) s = stepN k u := by
  simp only [stepN, h]

/-- A run that faults in its first step. -/
theorem stepN_of_fault {k : Nat} {s : State} {f : Fault} (h : step s = .fault f) : stepN (k + 1) s = .fault f := by
  simp only [stepN, h]

/-- There is a first overflowing edge exactly where a rectangle breaks the contract of R24. -/
theorem firstOverflow_eq_none {s : State} : s.firstOverflow = none ↔ ∀ m, (s.rect m).fits := by
  constructor
  · intro h m
    unfold State.firstOverflow at h
    split_ifs at h
    cases m <;> exact ⟨by omega, by omega⟩
  · intro h
    have h0 := h .win0
    have h1 := h .win1
    unfold Rect.fits at h0 h1
    unfold State.firstOverflow
    rw [if_neg (by omega), if_neg (by omega), if_neg (by omega), if_neg (by omega)]

/-- What a first overflowing edge says: its step, its sum above 255, and the sums of the earlier extent steps within a
byte (R166). -/
theorem firstOverflow_eq_some {s : State} {m : Mov} {n : Nat} (h : s.firstOverflow = some (m, n)) :
    (m = .win0 ∧ n = 2 ∧ 255 < (s.rect .win0).x.toNat + (s.rect .win0).w.toNat) ∨
    ((s.rect .win0).x.toNat + (s.rect .win0).w.toNat ≤ 255 ∧
      ((m = .win0 ∧ n = 3 ∧ 255 < (s.rect .win0).y.toNat + (s.rect .win0).h.toNat) ∨
       ((s.rect .win0).fits ∧
         ((m = .win1 ∧ n = 5 ∧ 255 < (s.rect .win1).x.toNat + (s.rect .win1).w.toNat) ∨
          (m = .win1 ∧ n = 6 ∧ (s.rect .win1).x.toNat + (s.rect .win1).w.toNat ≤ 255 ∧
            255 < (s.rect .win1).y.toNat + (s.rect .win1).h.toNat))))) := by
  unfold State.firstOverflow at h
  unfold Rect.fits
  split_ifs at h <;>
    simp only [Option.some.injEq, Prod.mk.injEq] at h <;> obtain ⟨rfl, rfl⟩ := h <;> simp <;> omega

/-- `t` stands in a commit of the cache of `s`: `SEQ` is `n`, and the events `es` have been written. -/
structure InCommit (s t : State) (n : BitVec 4) (es : List WriteEvent) : Prop where
  cfg      : t.cfg = s.cfg
  wasReset : t.wasReset = s.wasReset
  wb       : ∀ x, t.wb x = s.wb x
  rect     : ∀ m, t.rect m = s.rect m
  seq      : t.seq = n
  trace    : t.trace = s.trace ++ es
  host     : t.host = s.host
  regs     : RegsAre t (es.foldl WriteEvent.onRegs s.reg)

/-- One step of the machine inside a commit. -/
theorem InCommit.next {s t : State} {n : BitVec 4} {es : List WriteEvent} {op : SeqOp} {e : WriteEvent}
    (h : InCommit s t n es) (hw : s.cfg.wellFormed = true) (hn : n ≠ 0) (ho : seqOp n = some op)
    (he : stepEvent s op = .ok e) :
    ∃ u, step t = .next u ∧ InCommit s u (if n = 9 then 0 else n + 1) (es ++ [e]) ∧
      u.resp = if n = 9 then .ok else t.resp := by
  have hseq : t.envMove.seq = n := h.seq
  rw [step_busy (by rw [h.cfg]; exact hw) (by rw [h.seq]; exact hn)]
  refine ⟨_, commitStep_of_event (by rw [hseq]; exact ho)
    (stepEvent_congr (s := s) (by simp [h.cfg]) (by simp [h.wb]) (by simp [h.rect]) he), ?_, ?_⟩
  · constructor
    · simp [h.cfg]
    · simp [h.wasReset]
    · simp [h.wb]
    · simp [h.rect]
    · rw [State.advance_seq, State.busWrite_seq, hseq]
    · simp [h.trace]
    · simp [h.host]
    · rw [List.foldl_append]; exact h.regs.envMove.write e
  · rw [State.advance_resp, State.busWrite_seq, hseq]; simp

end Sys2Proof.Machine
end

