-- ==== Sys2Proof/Tests/Slice0.lean ====
section
/-! SUPPORT. The model's own tests: ill-formed data each check refuses, words and lines decoded as spec/ has them,
single steps against the vectors of 95_test_vectors.md, and for every statement with hypotheses a state and operands
that meet them. -/

namespace Sys2Proof.Tests

open Sys2Proof Sys2Proof.Machine

/-- The next state of an outcome that has one. -/
def nextOf (o : Host.Outcome State Fault Refusal) : Option State :=
  match o with
  | .next s => some s
  | .fault _ => none
  | .refused _ => none

/-- The fault of an outcome that is one. -/
def faultOf (o : Host.Outcome State Fault Refusal) : Option Fault :=
  match o with
  | .fault f => some f
  | .next _ => none
  | .refused _ => none

/-- The refusal of an outcome that is one. -/
def refusalOf (o : Host.Outcome State Fault Refusal) : Option Refusal :=
  match o with
  | .refused r => some r
  | .next _ => none
  | .fault _ => none

/-- What a command word decodes to, the argument ports zero. -/
def decodedWord (w : Reg16) : Option Instr := (decode (.plain w)).toOption

/-- A reset block that is about to perform write step `n`. -/
def atStep (n : BitVec 4) : State := { State.reset with seq := n }

/-- A reset block with one move on its port. -/
def withMove (m : HostMove) : State := { State.reset with host := [m] }

/-- A reset block about to perform write step `n`, with rectangle 0 as given. -/
def atStepRect0 (n : BitVec 4) (r : Rect) : State := { atStep n with rect0 := r }

/-- A reset block about to perform write step `n`, with rectangle 1 as given. -/
def atStepRect1 (n : BitVec 4) (r : Rect) : State := { atStep n with rect1 := r }

/-- The default parameters with `EDGE_OVF = wrap8`. -/
def wrapConfig : Config := { Config.default with edgeOvf := .wrap8 }

/-! ## Well-formedness: R7 and R83 -/

theorem test_default_config_wellFormed : Config.default.wellFormed = true := by decide
theorem test_screenW_256_refused : { Config.default with screenW := 256 }.wellFormed = false := by decide
theorem test_screenH_256_refused : { Config.default with screenH := 256 }.wellFormed = false := by decide
theorem test_screen_255_accepted : { Config.default with screenW := 255, screenH := 255 }.wellFormed = true := by decide
theorem test_aliased_registers_refused : { Config.default with winvBase := 0x21 }.wellFormed = false := by decide

theorem test_lines_out_of_range_refused :
    (AsmLine.setblend .win0 2).wellFormed = false ∧ (AsmLine.setobj .win0 (-1)).wellFormed = false ∧
    (AsmLine.setbg .win0 4 1).wellFormed = false ∧ (AsmLine.setbg .win0 3 2).wellFormed = false ∧
    (AsmLine.setposu8 .win0 256 0 0 0).wellFormed = false ∧ (AsmLine.setposu8 .win0 0 256 0 0).wellFormed = false ∧
    (AsmLine.setposu8 .win0 0 0 256 0).wellFormed = false ∧ (AsmLine.setposu8 .win0 0 0 0 (-1)).wellFormed = false ∧
    (AsmLine.setposu8 .out 0 0 0 0).wellFormed = false ∧ (AsmLine.setpos .obj 0 0 0 0).wellFormed = false := by decide

theorem test_setpos_line_range :
    (AsmLine.setpos .win0 2147483648 0 0 0).wellFormed = false ∧
    (AsmLine.setpos .win0 0 2147483648 0 0).wellFormed = false ∧
    (AsmLine.setpos .win0 0 0 (-2147483649) 0).wellFormed = false ∧
    (AsmLine.setpos .win0 0 0 0 (-2147483649)).wellFormed = false ∧
    (AsmLine.setpos .win1 2147483647 (-2147483648) 2147483647 (-2147483648)).wellFormed = true := by decide

/-! ## Decoding: words written out from R71, R77 and R78, and the table of 95_test_vectors.md 2.1 -/

theorem test_decode_enable : decodedWord 0b0001001100000000 = some (.enable .obj) := by decide
theorem test_decode_disable : decodedWord 0b0010001000000000 = some (.disable .out) := by decide
theorem test_decode_setblend : decodedWord 0b0011000100000001 = some (.setblend .win1 true) := by decide
theorem test_decode_setobj : decodedWord 0b0100001100000000 = some (.setobj .obj false) := by decide
theorem test_decode_setbg : decodedWord 0b0101001100110001 = some (.setbg .obj 3 true) := by decide
theorem test_decode_reset : decodedWord 0b0110000100000000 = some (.reset .win1) := by decide
theorem test_decode_setposu8 :
    decode ⟨0b1000000100000000, 0xF0A00F5F, 1, 2, 3⟩ = .ok (.setposu8 .win1 240 160 15 95) := by decide
theorem test_decode_setpos :
    decode ⟨0b1001000100000000, 0xFFFFFFFB, 0x12C, 0x32, 0x33⟩ = .ok (.setpos .win1 (-5) 300 50 51) := by decide
theorem test_decode_commit : decodedWord 0b1100000000000000 = some .commit := by decide

/-- R81 (a): the reserved opcodes. -/
theorem test_decode_reserved_op :
    decode (.plain 0x0000) = .error .reservedOp ∧ decode (.plain 0x7000) = .error .reservedOp ∧
    decode (.plain 0xA000) = .error .reservedOp ∧ decode (.plain 0xB000) = .error .reservedOp ∧
    decode (.plain 0xD000) = .error .reservedOp ∧ decode (.plain 0xE000) = .error .reservedOp ∧
    decode (.plain 0xF000) = .error .reservedOp ∧ decode (.plain 0xFFFF) = .error .reservedOp := by decide

/-- R81 (b): a 1 where a 0 must be. -/
theorem test_decode_must_be_zero :
    decode (.plain 0x1400) = .error .mustBeZero ∧ decode (.plain 0x1001) = .error .mustBeZero ∧
    decode (.plain 0x1010) = .error .mustBeZero ∧ decode (.plain 0x3102) = .error .mustBeZero ∧
    decode (.plain 0x5341) = .error .mustBeZero ∧ decode (.plain 0x50F1) = .error .mustBeZero ∧
    decode (.plain 0x9101) = .error .mustBeZero ∧ decode (.plain 0xC100) = .error .mustBeZero ∧
    decode (.plain 0xC001) = .error .mustBeZero := by decide

/-- R81 (c): a position command on a Window without a rectangle. -/
theorem test_decode_no_rectangle :
    decode (.plain 0x8200) = .error .noRectangle ∧ decode (.plain 0x8300) = .error .noRectangle ∧
    decode (.plain 0x9200) = .error .noRectangle ∧ decode (.plain 0x9300) = .error .noRectangle := by decide

/-- The encoder's words, from the table of R83. -/
theorem test_encode_words :
    (encode (.disable .obj)).cmd = 0x2300 ∧ (encode (.setblend .win1 true)).cmd = 0x3101 ∧
    (encode (.setbg .win1 1 false)).cmd = 0x5110 ∧
    encode (.setposu8 .win0 10 20 100 50) = ⟨0x8000, 0x0A146432, 0, 0, 0⟩ ∧
    encode (.setpos .win1 (-5) 300 50 50) = ⟨0x9100, 0xFFFFFFFB, 0x12C, 0x32, 0x32⟩ := by decide

/-- The host's numbering: the command word in bits 15..0. -/
theorem test_decodeTableWord :
    decodeTableWord 16 0x5331 = some (.setbg .obj 3 true) ∧ decodeTableWord 16 0x7000 = none ∧
    decodeTableWord 16 0x9100 = some (.setpos .win1 0 0 0 0) := by decide

/-! ## The assembler: R83 and the programs of 95_test_vectors.md part 3 -/

theorem test_assemble_setposu8 :
    assembleText "SETPOSU8 win0, 10, 20, 100, 50".toList = some (some ⟨0x8000, 0x0A146432, 0, 0, 0⟩) := by decide
theorem test_assemble_setpos :
    assembleText "  SETPOS win1, -5, 0x12C, 50, 50 ; clamped".toList =
      some (some ⟨0x9100, 0xFFFFFFFB, 0x12C, 0x32, 0x32⟩) := by decide
theorem test_assemble_setbg : assembleText "SETBG out, 3, 1".toList = some (some (.plain 0x5231)) := by decide
theorem test_assemble_comment_only : assembleText " ; nothing".toList = some none := by decide
theorem test_assemble_refuses :
    assembleText "SETBG out, 4, 1".toList = none ∧ assembleText "SETPOSU8 out, 0, 0, 0, 0".toList = none ∧
    assembleText "COMMIT win0".toList = none ∧ assembleText "ENABLE".toList = none := by decide

/-! ## One command: 95_test_vectors.md 2.2 to 2.4 -/

theorem test_enable_keeps_other_bits :
    (nextOf (exec (.enable .win0) { State.reset with wb0 := 0x13 })).map State.wb0 = some 0x93 := by decide
theorem test_disable_keeps_other_bits :
    (nextOf (exec (.disable .obj) { State.reset with wb3 := 0xB5 })).map State.wb3 = some 0x35 := by decide
theorem test_setblend_on :
    (nextOf (exec (.setblend .win1 true) { State.reset with wb1 := 0x80 })).map State.wb1 = some 0xA0 := by decide
theorem test_setblend_off :
    (nextOf (exec (.setblend .win1 false) { State.reset with wb1 := 0xA0 })).map State.wb1 = some 0x80 := by decide
theorem test_setobj_on :
    (nextOf (exec (.setobj .out true) State.reset)).map State.wb2 = some 0x10 := by decide
theorem test_setobj_off :
    (nextOf (exec (.setobj .out false) { State.reset with wb2 := 0xBF })).map State.wb2 = some 0xAF := by decide
theorem test_setbg_highest :
    (nextOf (exec (.setbg .obj 3 true) State.reset)).map State.wb3 = some 0x08 := by decide
theorem test_setbg_clears_one :
    (nextOf (exec (.setbg .win1 1 false) { State.reset with wb1 := 0x0F })).map State.wb1 = some 0x0D := by decide
theorem test_reset_clears_all :
    (nextOf (exec (.reset .out) { State.reset with wb2 := 0xBF })).map State.wb2 = some 0x00 := by decide
theorem test_reset_keeps_rectangle :
    (nextOf (exec (.reset .win0) { State.reset with rect0 := ⟨1, 2, 3, 4⟩ })).map State.rect0 = some ⟨1, 2, 3, 4⟩ := by
  decide
theorem test_setposu8_order :
    (nextOf (exec (.setposu8 .win0 10 20 100 50) State.reset)).map State.rect0 = some ⟨10, 20, 100, 50⟩ := by decide
theorem test_setposu8_verbatim :
    (nextOf (exec (.setposu8 .win1 255 255 255 255) State.reset)).map State.rect1 = some ⟨255, 255, 255, 255⟩ := by
  decide
theorem test_setpos_extremes :
    (nextOf (exec (.setpos .win0 0x80000000 0x7FFFFFFF 0x7FFFFFFF 0x80000000) State.reset)).map State.rect0 =
      some ⟨0, 160, 255, 0⟩ := by decide
theorem test_setpos_truncates_size :
    (nextOf (exec (.setpos .win0 241 80 256 300) State.reset)).map State.rect0 = some ⟨240, 80, 0, 44⟩ := by decide
theorem test_commit_taken : (nextOf (exec .commit State.reset)).map State.seq = some 1 := by decide

/-- R163: an illegal word from a step of the whole machine. -/
theorem test_illegal_word_responds :
    (nextOf (step (withMove (.command (.plain 0x7000))))).map (fun u => (u.resp, u.seq, u.host)) =
      some (.illegal, 0, []) := by decide

/-- The host's placing of a word: the very next step takes it. -/
theorem test_withFetchWord_runs :
    (nextOf (step (State.reset.withFetchWord 16 0x1300))).map (fun u => (u.wb3, u.host)) = some (0x80, []) := by decide

/-! ## The packer and the write steps: 95_test_vectors.md 2.5 and 2.6 -/

/-- Step 4 over `WINCTL_A = 0x1284`. -/
theorem test_step4_merges :
    (nextOf (commitStep { (atStep 4).setReg 0x24 0x1284 with wb1 := 0xB0 })).map State.winctlA = some 0xB084 := by
  decide
/-- Step 2 of rectangle (10, 20, 100, 50). -/
theorem test_step2_extent :
    (nextOf (commitStep (atStepRect0 2 ⟨10, 20, 100, 50⟩))).map (fun u => u.winh .win0) = some 0x0A6E := by decide
/-- Step 3 of the same rectangle. -/
theorem test_step3_extent :
    (nextOf (commitStep (atStepRect0 3 ⟨10, 20, 100, 50⟩))).map (fun u => u.winv .win0) = some 0x1446 := by decide
/-- Step 9 with windows 0 and object enabled: `0x1F40` becomes `0xBF40`, and the commit ends. -/
theorem test_step9_summary :
    (nextOf (commitStep { (atStep 9).setReg 0 0x1F40 with wb0 := 0x80, wb2 := 0x80, wb3 := 0x80 })).map
      (fun u => (u.dispcnt, u.seq)) = some (0xBF40, 0) := by decide
/-- The outside Window alone raises no bit: `0xFFFF` becomes `0x1FFF`. -/
theorem test_step9_outside_only :
    (nextOf (commitStep { (atStep 9).setReg 0 0xFFFF with wb2 := 0x80 })).map State.dispcnt = some 0x1FFF := by decide
/-- The overflow of (240, 10, 50, 20) under `fault`. -/
theorem test_step2_overflow_fault :
    faultOf (commitStep (atStepRect0 2 ⟨240, 10, 50, 20⟩)) = some (.edgeOverflow .win0 2) := by decide
/-- The same under `wrap8`: `Right = 34`, and no carry into `LEFT`. -/
theorem test_step2_overflow_wrap8 :
    (nextOf (commitStep { atStepRect0 2 ⟨240, 10, 50, 20⟩ with cfg := wrapConfig })).map (fun u => u.winh .win0) =
      some 0xF022 := by decide
/-- R62: the low byte at the lower address. -/
theorem test_little_endian : (State.reset.setReg 0x24 0xB084).mem = [(0x4000048, 0x84), (0x4000049, 0xB0)] := by decide
/-- A write of zero removes the entry. -/
theorem test_zero_not_listed : ((State.reset.setReg 0x24 0xB084).setReg 0x24 0xB000).mem = [(0x4000049, 0xB0)] := by
  decide

/-! ## Witnesses: the hypotheses of each statement can be met, clause by clause -/

theorem witness_DecodeOfEncode :
    (⟨0x8100, 0x0A146432, 7, 7, 7⟩ : Command).cmd = (encode (.setposu8 .win1 10 20 100 50)).cmd ∧
    (⟨0x8100, 0x0A146432, 7, 7, 7⟩ : Command).arg0 = (encode (.setposu8 .win1 10 20 100 50)).arg0 ∧
    (⟨0x1300, 7, 7, 7, 7⟩ : Command).cmd = (encode (.enable .obj)).cmd ∧
    (⟨0x9000, 0xFFFFFFFF, 2, 3, 4⟩ : Command).cmd = (encode (.setpos .win0 (-1) 2 3 4)).cmd := by decide

theorem witness_EncodeOfDecode :
    decode ⟨0x8100, 0x0A146432, 7, 7, 7⟩ = .ok (.setposu8 .win1 10 20 100 50) ∧
    decode ⟨0x9000, 0xFFFFFFFF, 2, 3, 4⟩ = .ok (.setpos .win0 (-1) 2 3 4) ∧
    decode ⟨0xC000, 7, 7, 7, 7⟩ = .ok .commit := by decide

theorem witness_DecodeMatchesOpcodeMap :
    (⟨"SETBG", 0x5000, 0xFCCE⟩ : OpcodeRow) ∈ opcodeTable ∧ (0x5331 : Reg16) &&& 0xFCCE = 0x5000 := by decide

theorem witness_FlagCommandFrame :
    (Instr.setbg .out 3 true).flagTarget = some .out ∧ Instr.setbg .out 3 true ≠ .reset .out ∧
    (Instr.reset .win0).flagTarget = some .win0 ∧ (Instr.enable .obj).flagTarget = some .obj := by decide

/-- One pair per clause: different targets; different bits of one target; one bit of one target. -/
theorem witness_FlagCommandsCommute :
    (Instr.enable .win0).flagTarget = some .win0 ∧ (Instr.reset .obj).flagTarget = some .obj ∧ Slot.win0 ≠ Slot.obj ∧
    (Instr.setblend .win0 true).flagBit = some 5 ∧ (Instr.setbg .win0 1 true).flagBit = some 1 ∧
    (Instr.disable .win0).flagBit = (Instr.enable .win0).flagBit ∧
    (Instr.disable .win0).flagTarget = some .win0 := by decide

theorem witness_SetposResult : State.reset.cfg.screenW ≤ 255 ∧ State.reset.cfg.screenH ≤ 255 := by decide

theorem witness_SetposBounds :
    State.reset.cfg.screenW ≤ 255 ∧ State.reset.cfg.screenH ≤ 255 ∧ (0 : Int) ≤ 240 ∧ clamp (-5) 0 240 = 0 ∧
    clamp 240 0 240 = 240 ∧ clamp 241 0 240 = 240 := by decide

theorem witness_PositionCommandFrame :
    (Instr.setpos .win1 0 0 0 0).posTarget = some .win1 ∧ (Instr.setposu8 .win0 0 0 0 0).posTarget = some .win0 := by
  decide

/-- The lowest, the highest and the widest field, and a write step of each of the four masks. -/
theorem witness_FieldWriteMerges :
    ((State.reset.setReg 0x24 0x1284).mem.wf = true ∧ 1 ≤ 1 ∧ 15 + 1 ≤ 16 ∧ 0 + 16 ≤ 16) ∧
    stepEvent State.reset (.control .win0) = .ok ⟨0x24, 0x00FF, 0⟩ ∧
    stepEvent State.reset (.control .obj) = .ok ⟨0x25, 0xFF00, 0⟩ ∧
    stepEvent State.reset (.vertical .win1) = .ok ⟨0x23, 0xFFFF, 0⟩ ∧
    stepEvent State.reset .summary = .ok ⟨0, 0xE000, 0⟩ := by decide

theorem witness_LittleEndianRegisters : (State.reset.setReg 0x24 0x1284).mem.wf = true := by decide

theorem witness_ControlByteStep :
    State.reset.mem.wf = true ∧ seqOp (atStep 1).seq = some (.control .win0) ∧
    seqOp (atStep 4).seq = some (.control .win1) ∧ seqOp (atStep 7).seq = some (.control .out) ∧
    seqOp (atStep 8).seq = some (.control .obj) := by decide

/-- Each clause at the edge sums 255 and 256, and a wrapping step above it. -/
theorem witness_ExtentSteps :
    (atStep 2).mem.wf = true ∧ seqOp 2 = some (.horizontal .win0) ∧ seqOp 3 = some (.vertical .win0) ∧
    seqOp 5 = some (.horizontal .win1) ∧ seqOp 6 = some (.vertical .win1) ∧
    ((atStepRect0 2 ⟨240, 160, 15, 95⟩).rect .win0).x.toNat + ((atStepRect0 2 ⟨240, 160, 15, 95⟩).rect .win0).w.toNat =
      255 ∧
    ((atStepRect1 6 ⟨240, 160, 15, 95⟩).rect .win1).y.toNat + ((atStepRect1 6 ⟨240, 160, 15, 95⟩).rect .win1).h.toNat =
      255 ∧
    (atStepRect0 2 ⟨240, 160, 16, 96⟩).cfg.edgeOvf = .fault ∧
    255 < ((atStepRect0 2 ⟨240, 160, 16, 96⟩).rect .win0).x.toNat +
      ((atStepRect0 2 ⟨240, 160, 16, 96⟩).rect .win0).w.toNat ∧
    255 < ((atStepRect1 6 ⟨240, 160, 16, 96⟩).rect .win1).y.toNat +
      ((atStepRect1 6 ⟨240, 160, 16, 96⟩).rect .win1).h.toNat ∧
    wrapConfig.edgeOvf = .wrap8 := by decide

theorem witness_EdgeValue :
    (240 : Byte).toNat + (15 : Byte).toNat ≤ 255 ∧ 255 < (240 : Byte).toNat + (16 : Byte).toNat ∧
    edge .wrap8 240 16 = some 0 := by decide

/-- The right side of the equivalence, at a horizontal and at a vertical step, and a sum of 255 that is outside it. -/
theorem witness_EdgeOverflowExactly :
    faultOf (commitStep (atStepRect1 5 ⟨240, 0, 16, 0⟩)) = some (.edgeOverflow .win1 5) ∧
    faultOf (commitStep (atStepRect0 3 ⟨0, 160, 0, 96⟩)) = some (.edgeOverflow .win0 3) ∧
    faultOf (commitStep (atStepRect0 3 ⟨0, 160, 0, 95⟩)) = none := by decide

theorem witness_SummaryStep :
    (atStep 9).mem.wf = true ∧ (atStep 9).seq = 9 ∧ (atStep 9).seq ≠ 0 ∧ ∃ u, step (atStep 9) = .next u :=
  ⟨by decide, rfl, by decide, _, rfl⟩

theorem witness_Sequencing :
    (nextOf (commitStep (atStep 1))).map State.seq = some 2 ∧ (nextOf (commitStep (atStep 8))).map State.seq = some 9 ∧
    (nextOf (commitStep (atStep 9))).map State.seq = some 0 ∧
    1 ≤ (atStepRect1 6 ⟨0, 160, 0, 96⟩).seq.toNat ∧ (atStepRect1 6 ⟨0, 160, 0, 96⟩).seq.toNat ≤ 9 ∧
    faultOf (commitStep (atStepRect1 6 ⟨0, 160, 0, 96⟩)) = some (.edgeOverflow .win1 6) ∧
    Instr.enable .win0 ≠ .commit := by decide

theorem witness_WriteStepFrame :
    seqOp (atStep 8).seq = some (.control .obj) ∧
    stepEvent (atStep 8) (.control .obj) = .ok ⟨0x25, 0xFF00, 0⟩ := by decide

/-- A reset block whose rectangle 0 keeps the contract by nothing to spare, with COMMIT on its port twice. -/
def readyToCommit : State :=
  { State.reset with
    wb0 := 0xBF
    rect0 := ⟨240, 160, 15, 95⟩
    host := [.command (encode .commit), .command (encode .commit)] }

/-- The same with rectangle 0 over the edge and `EDGE_OVF = wrap8`. -/
def readyToWrap : State := { readyToCommit with rect0 := ⟨240, 160, 16, 96⟩, cfg := wrapConfig }

/-- The same with rectangle 0 over the edge under `fault`. -/
def readyToOverflow : State := { readyToCommit with rect0 := ⟨240, 160, 16, 96⟩ }

theorem witness_edgesOk : readyToCommit.edgesOk ∧ readyToWrap.edgesOk :=
  ⟨.inr fun m => by cases m <;> exact ⟨by decide, by decide⟩, .inl rfl⟩

theorem witness_CommitCompletes :
    readyToCommit.cfg.wellFormed = true ∧ readyToCommit.mem.wf = true ∧ readyToCommit.seq = 0 ∧
    readyToCommit.edgesOk ∧ readyToOverflow.cfg.wellFormed = true ∧ readyToOverflow.mem.wf = true ∧
    readyToOverflow.seq = 0 ∧
    ¬ readyToOverflow.edgesOk :=
  ⟨by decide, by decide, by decide, witness_edgesOk.1, by decide, by decide, by decide, fun h => h.elim (by decide) fun f =>
    absurd (f .win0).1 (by decide)⟩

theorem witness_CommitFromPort :
    readyToWrap.cfg.wellFormed = true ∧ readyToWrap.mem.wf = true ∧ readyToWrap.seq = 0 ∧
    readyToWrap.wasReset = true ∧ readyToWrap.edgesOk ∧
    readyToWrap.host = .command ⟨0xC000, 0, 0, 0, 0⟩ :: [.command (encode .commit)] :=
  ⟨by decide, by decide, by decide, by decide, witness_edgesOk.2, by decide⟩

theorem witness_CommitIdempotent :
    readyToCommit.cfg.wellFormed = true ∧ readyToCommit.mem.wf = true ∧ readyToCommit.seq = 0 ∧
    readyToCommit.wasReset = true ∧ readyToCommit.edgesOk ∧
    readyToCommit.host = .command (encode .commit) :: .command (encode .commit) :: [] :=
  ⟨by decide, by decide, by decide, by decide, witness_edgesOk.1, rfl⟩

theorem witness_CommitOrderIrrelevant :
    readyToCommit.cfg.wellFormed = true ∧ readyToCommit.mem.wf = true ∧
    (commitTrace readyToCommit).reverse.Perm (commitTrace readyToCommit) ∧
    (commitTrace readyToCommit).reverse ≠ commitTrace readyToCommit :=
  ⟨by decide, by decide, List.reverse_perm _, by decide⟩

/-- A block with COMMIT on its port and the rectangles as given. -/
def readyWith (r0 r1 : Rect) : State := { readyToCommit with rect0 := r0, rect1 := r1 }

/-- A first overflow at each of the four steps; at step 2 both rectangles overflow both ways (R166). -/
theorem witness_FirstOverflowReported :
    (readyToOverflow.cfg.wellFormed = true ∧ readyToOverflow.mem.wf = true ∧ readyToOverflow.seq = 0 ∧
      readyToOverflow.wasReset = true ∧ readyToOverflow.cfg.edgeOvf = .fault ∧
      readyToOverflow.host = .command ⟨0xC000, 0, 0, 0, 0⟩ :: [.command (encode .commit)]) ∧
    readyToOverflow.firstOverflow = some (.win0, 2) ∧
    (readyWith ⟨240, 160, 16, 96⟩ ⟨240, 160, 16, 96⟩).firstOverflow = some (.win0, 2) ∧
    (readyWith ⟨240, 160, 15, 96⟩ ⟨240, 160, 16, 96⟩).firstOverflow = some (.win0, 3) ∧
    (readyWith ⟨240, 160, 15, 95⟩ ⟨240, 160, 16, 96⟩).firstOverflow = some (.win1, 5) ∧
    (readyWith ⟨240, 160, 15, 95⟩ ⟨240, 160, 15, 96⟩).firstOverflow = some (.win1, 6) ∧
    (readyWith ⟨240, 160, 15, 95⟩ ⟨240, 160, 15, 95⟩).firstOverflow = none := by decide

/-- A state of the invariant that is not the reset state. -/
theorem witness_invariant : readyToCommit.Inv := ⟨by decide, by decide, fun t => by cases t <;> decide⟩

theorem witness_ReservedBitPublishedZero :
    readyToCommit.cfg.wellFormed = true ∧ readyToCommit.Inv ∧ readyToCommit.seq = 0 ∧ readyToCommit.wasReset = true ∧
    readyToCommit.edgesOk ∧ readyToCommit.host = .command (encode .commit) :: [.command (encode .commit)] :=
  ⟨by decide, witness_invariant, by decide, by decide, witness_edgesOk.1, rfl⟩

/-- A block never reset, its cache and a register not zero, the reset input on its port. -/
def neverReset : State :=
  { State.reset.setReg 0x24 0xFFFF with wasReset := false, wb1 := 0xBF, host := [.reset] }

theorem witness_ResetInputRun :
    neverReset.cfg.wellFormed = true ∧ neverReset.mem.wf = true ∧ neverReset.seq = 0 ∧ neverReset.host = .reset :: [] := by
  decide

theorem witness_StepKeepsInvariant : readyToCommit.Inv ∧ ∃ u, step readyToCommit = .next u :=
  ⟨witness_invariant, _, rfl⟩

/-- A state whose registers are what its trace makes them: no trace, no register written. -/
theorem witness_StepKeepsTraced :
    { State.reset with trace := [] }.traced ∧ ∃ u, step { State.reset with trace := [] } = .next u :=
  ⟨⟨by decide, fun a k _ _ => by simp [State.reg, State.reset, Memory.readByte, replay]⟩, _, rfl⟩

theorem witness_ParametersFixed : (∃ u, step readyToCommit = .next u) ∧ readyToCommit.wasReset = true :=
  ⟨⟨_, rfl⟩, rfl⟩

/-- An idle block takes its command; a busy one performs a step. -/
theorem witness_StepRunsDecoded :
    readyToCommit.cfg.wellFormed = true ∧ readyToCommit.wasReset = true ∧ readyToCommit.seq = 0 ∧
    readyToCommit.host = .command (encode .commit) :: [.command (encode .commit)] ∧
    decode (encode .commit) = .ok .commit ∧ (atStep 4).seq ≠ 0 ∧ ∃ u, step (atStep 4) = .next u :=
  ⟨by decide, rfl, rfl, rfl, by decide, by decide, _, rfl⟩

theorem witness_IllegalCommandEffect :
    (withMove (.command (.plain 0x8200))).wasReset = true ∧ (withMove (.command (.plain 0x8200))).seq = 0 ∧
    (withMove (.command (.plain 0x8200))).host = .command (.plain 0x8200) :: [] ∧
    ∀ r ∈ opcodeTable, (Command.plain 0x8200).cmd &&& r.mask ≠ r.pattern := by decide

theorem witness_EnvironmentTurn : (State.reset.setReg 0 0x1F40).mem.wf = true := by decide

theorem witness_SettersPublishNothing :
    readyToCommit.mem.wf = true ∧ readyToCommit.seq = 0 ∧ ∃ u, step readyToCommit = .next u :=
  ⟨by decide, rfl, _, rfl⟩

/-- The register above `WINCTL_B`, and the byte below the region. -/
theorem witness_OnlySevenRegistersReached :
    (∃ u, step readyToCommit = .next u) ∧ readyToCommit.cfg.foreign (regAddr readyToCommit.cfg 0x26) ∧
    readyToCommit.cfg.foreign 0x03FFFFFF :=
  ⟨⟨_, rfl⟩, by unfold Config.foreign; decide, by unfold Config.foreign; decide⟩

/-- Two states that differ in every window register's bytes and agree in the rest. -/
theorem witness_BlockNeverReads :
    AgreeButMem readyToCommit { readyToCommit with mem := [(0x4000048, 0x12)], envTick := 7 } :=
  ⟨rfl, rfl, fun t => by cases t <;> rfl, fun m => by cases m <;> rfl, rfl, rfl, rfl, rfl⟩

/-- A step from each of the three ranges of `SEQ`. -/
theorem witness_SeqOrder :
    (∃ u, step (atStep 0) = .next u) ∧ (∃ u, step (atStep 1) = .next u) ∧ (∃ u, step (atStep 8) = .next u) ∧
    ∃ u, step (atStep 9) = .next u := ⟨⟨_, rfl⟩, ⟨_, rfl⟩, ⟨_, rfl⟩, _, rfl⟩

theorem witness_TraceGrowth :
    ((nextOf (step (atStep 0))).map fun u => u.trace.length) = some 9 ∧
    ((nextOf (step (atStep 9))).map fun u => u.trace.length) = some 10 := by decide

/-- A state of the invariant whose step faults. -/
theorem witness_NoCommandFails :
    (atStepRect0 2 ⟨240, 160, 16, 96⟩).Inv ∧
    faultOf (step (atStepRect0 2 ⟨240, 160, 16, 96⟩)) = some (.edgeOverflow .win0 2) :=
  ⟨⟨by decide, by decide, fun t => by cases t <;> decide⟩, by decide⟩

theorem witness_BadParametersRefused :
    refusalOf (step { State.reset with cfg := { Config.default with dispcntAddr := 0x23 } }) = some .badConfig ∧
    refusalOf (step State.reset) = none := by decide

theorem witness_NeverResetRefused :
    { neverReset with host := [.command (encode .commit)] }.cfg.wellFormed = true ∧
    { neverReset with host := [.command (encode .commit)] }.seq = 0 ∧
    { neverReset with host := [.command (encode .commit)] }.wasReset = false ∧
    { neverReset with host := [.command (encode .commit)] }.host = .command (encode .commit) :: [] := by decide

/-- One step per clause, from a state that holds the other response where the clause lets it change: inside a commit,
at its end, an empty port, the reset input, a COMMIT, a setter, an illegal word. -/
theorem witness_ResponseHeld :
    ((nextOf (step { atStep 8 with resp := .illegal })).map State.resp) = some .illegal ∧
    ((nextOf (step { atStep 9 with resp := .illegal })).map State.resp) = some .ok ∧
    ((nextOf (step { State.reset with resp := .illegal })).map State.resp) = some .illegal ∧ State.reset.host = [] ∧
    ((nextOf (step { withMove .reset with resp := .illegal })).map State.resp) = some .illegal ∧
    ((nextOf (step { withMove (.command (.plain 0xC000)) with resp := .illegal })).map State.resp) = some .illegal ∧
    ((nextOf (step { withMove (.command (.plain 0x1000)) with resp := .illegal })).map State.resp) = some .ok ∧
    ((nextOf (step (withMove (.command (.plain 0x7000))))).map State.resp) = some .illegal := by decide

/-- The bounds of the range: 9 is a write step, 10 and 15 stop. -/
theorem witness_IllegalSeqStops :
    faultOf (commitStep (atStep 0)) = some (.illegalSeq 0) ∧ faultOf (commitStep (atStep 9)) = none ∧
    faultOf (step (atStep 10)) = some (.illegalSeq 10) ∧ faultOf (step (atStep 15)) = some (.illegalSeq 15) ∧
    (atStep 15).cfg.wellFormed = true := by decide

end Sys2Proof.Tests
end

section
/-! The parameters and the first reset along a step (R6, R183), and the refusal of bad parameters (R7). -/

namespace Sys2Proof.Machine

@[simp] theorem State.raiseIllegal_cfg (s : State) : s.raiseIllegal.cfg = s.cfg := rfl

@[simp] theorem State.raiseIllegal_wasReset (s : State) : s.raiseIllegal.wasReset = s.wasReset := rfl

/-- `u` has the parameters of `s`, and its block has been reset where that of `s` had. -/
def KeepsSetup (s u : State) : Prop := u.cfg = s.cfg ∧ (s.wasReset = true → u.wasReset = true)

theorem commitStep_keepsSetup {s u : State} (h : commitStep s = .next u) : KeepsSetup s u := by
  obtain ⟨_, e, _, _, rfl⟩ := commitStep_next h
  simp [KeepsSetup]

theorem takeMove_keepsSetup {s u : State} (h : takeMove s = .next u) : KeepsSetup s u := by
  obtain ⟨_, rfl⟩ | ⟨_, _, rfl⟩ | ⟨_, _, _, _, ⟨_, _, hexec⟩ | ⟨_, _, rfl⟩⟩ := takeMove_next h
  case inl => exact ⟨rfl, id⟩
  case inr.inl => simp [KeepsSetup]
  case inr.inr.inl =>
    obtain ⟨hcfg, hreset, -⟩ := exec_frame hexec
    simp [KeepsSetup, hcfg, hreset]
  case inr.inr.inr => simp [KeepsSetup]

/-- The environment's turn touches neither the parameters nor the reset flag (R37). -/
theorem keepsSetup_envMove {s u : State} : KeepsSetup s.envMove u ↔ KeepsSetup s u := by
  simp only [KeepsSetup, State.envMove_cfg, State.envMove_wasReset]

theorem step_keepsSetup {s u : State} (h : step s = .next u) : KeepsSetup s u := by
  obtain ⟨-, ⟨-, hmove⟩ | ⟨-, hwrite⟩⟩ := step_next h
  · exact keepsSetup_envMove.1 (takeMove_keepsSetup hmove)
  · exact keepsSetup_envMove.1 (commitStep_keepsSetup hwrite)

/-- Settles O46: what every step keeps, `KeepsSetup` written out. -/
theorem parametersFixed : Obligations.ParametersFixed := fun _ _ h => step_keepsSetup h

/-- No command is refused: each of the nine answers a next state (R160). -/
theorem exec_ne_refused (i : Instr) (s : State) (r : Refusal) : exec i s ≠ .refused r := by
  cases i <;> exact fun h => nomatch h

/-- A write step ends in a fault or a next state. -/
theorem commitStep_ne_refused (s : State) (r : Refusal) : commitStep s ≠ .refused r := by
  unfold commitStep
  split
  · simp
  · split <;> simp

/-- The one refusal of an idle block's turn (R183). -/
theorem takeMove_refused {s : State} {r : Refusal} (h : takeMove s = .refused r) : r = .neverReset := by
  unfold takeMove at h
  split at h
  · cases h
  · cases h
  · split at h
    · unfold takeCommand at h
      split at h
      · exact absurd h (exec_ne_refused _ _ r)
      · cases h
    · cases h; rfl

/-- Under parameters that meet R7 a step can be refused only as a command before the first reset. -/
theorem step_refused_of_wellFormed {s : State} {r : Refusal} (hw : s.cfg.wellFormed = true)
    (h : step s = .refused r) : r = .neverReset := by
  by_cases hseq : s.seq = 0
  · exact takeMove_refused (step_idle hw hseq ▸ h)
  · exact absurd (step_busy hw hseq ▸ h) (commitStep_ne_refused _ r)

theorem step_of_not_wellFormed {s : State} (hw : ¬ s.cfg.wellFormed = true) : step s = .refused .badConfig := by
  simp only [step, cycle, if_neg hw]

theorem step_refused_badConfig_iff (s : State) : step s = .refused .badConfig ↔ ¬ s.cfg.wellFormed = true := by
  refine ⟨fun h hw => ?_, step_of_not_wellFormed⟩
  cases step_refused_of_wellFormed hw h

end Sys2Proof.Machine

namespace Sys2Proof

/-- The check of R7 as the constraints it stands for. -/
theorem Config.wellFormed_iff (c : Config) :
    c.wellFormed = true ↔ c.screenW ≤ 255 ∧ c.screenH ≤ 255 ∧ c.indices.Nodup := by
  simp only [Config.wellFormed, Bool.and_eq_true, decide_eq_true_eq, and_assoc]

/-- Settles O56: a step is refused for its parameters exactly where the check of R7 fails. -/
theorem badParametersRefused : Obligations.BadParametersRefused := fun s =>
  (Machine.step_refused_badConfig_iff s).trans (not_congr s.cfg.wellFormed_iff)

end Sys2Proof
end

section
/-! What a command does to the cache and to `SEQ`, and which values of `SEQ` have a write step (R26, R85, R100 to R105,
R121, R122, R147). -/

namespace Sys2Proof.Machine

/-- What a command can do: change one bit of a flag byte, which is never bit 6 (R22); clear a flag byte; replace a
rectangle; or start the write steps. -/
theorem exec_cases {i : Instr} {s u : State} (h : exec i s = .next u) :
    (∃ t bit v, i.flagTarget = some t ∧ i.flagBit = some bit ∧ bit < 8 ∧ bit ≠ 6 ∧ u = s.setFlag t bit v) ∨
    (∃ t, i = .reset t ∧ u = (s.setWb t 0).respond .ok) ∨
    (∃ m r, i.posTarget = some m ∧ u = (s.setRect m r).respond .ok) ∨
    (i = .commit ∧ u = s.setSeq 1) := by
  cases i with
  | enable t => cases h; exact .inl ⟨t, 7, true, rfl, rfl, by decide, by decide, rfl⟩
  | disable t => cases h; exact .inl ⟨t, 7, false, rfl, rfl, by decide, by decide, rfl⟩
  | setblend t v => cases h; exact .inl ⟨t, 5, v, rfl, rfl, by decide, by decide, rfl⟩
  | setobj t v => cases h; exact .inl ⟨t, 4, v, rfl, rfl, by decide, by decide, rfl⟩
  | setbg t bg v => cases h; exact .inl ⟨t, bg.toNat, v, rfl, rfl, by omega, by omega, rfl⟩
  | reset t => cases h; exact .inr (.inl ⟨t, rfl, rfl⟩)
  | setposu8 m x y w h' => cases h; exact .inr (.inr (.inl ⟨m, _, rfl, rfl⟩))
  | setpos m x y w h' => cases h; exact .inr (.inr (.inl ⟨m, _, rfl, rfl⟩))
  | commit => cases h; exact .inr (.inr (.inr ⟨rfl, rfl⟩))

/-- Every command runs in every state (R160). -/
theorem exec_exists_next (i : Instr) (s : State) : ∃ u, exec i s = .next u := by
  cases i <;> exact ⟨_, rfl⟩

/-- COMMIT alone moves `SEQ` (R147). -/
theorem exec_seq {i : Instr} {s u : State} (h : exec i s = .next u) :
    u.seq = s.seq ∨ (i = .commit ∧ u.seq = 1) := by
  obtain ⟨_, _, _, _, _, _, _, rfl⟩ | ⟨_, _, rfl⟩ | ⟨_, _, _, rfl⟩ | ⟨hi, rfl⟩ := exec_cases h
  case inr.inr.inr => exact .inr ⟨hi, rfl⟩
  all_goals exact .inl (by simp)

/-- No command sets bit 6 of a flag byte (R22). -/
theorem exec_bit6 {i : Instr} {s u : State} (h : exec i s = .next u) (t : Slot)
    (hs : (s.wb t).getLsbD 6 = false) : (u.wb t).getLsbD 6 = false := by
  obtain ⟨t', bit, v, _, _, hlt, hne, rfl⟩ | ⟨t', _, rfl⟩ | ⟨_, _, _, rfl⟩ | ⟨_, rfl⟩ := exec_cases h
  case inl =>
    rw [State.setFlag_wb]
    split
    · next ht => rw [setBit_bit _ _ hlt, if_neg hne.symm, ← ht]; exact hs
    · exact hs
  case inr.inl =>
    rw [State.respond_wb, State.setWb_wb]
    split
    · rfl
    · exact hs
  case inr.inr.inl => simpa using hs
  case inr.inr.inr => simpa using hs

/-- A command makes of a slot's enabled state what R28 says of it. -/
theorem exec_en {i : Instr} {s u : State} (h : exec i s = .next u) (t : Slot) : u.en t = i.enables t (s.en t) := by
  cases i with
  | enable t' => cases h; simp [State.en_setFlag, Instr.enables, bitEN, eq_comm]
  | disable t' => cases h; simp [State.en_setFlag, Instr.enables, bitEN, eq_comm]
  | setblend t' v => cases h; simp [State.en_setFlag, Instr.enables, bitBLD]
  | setobj t' v => cases h; simp [State.en_setFlag, Instr.enables, bitOBJ]
  | setbg t' bg v =>
    cases h
    rw [State.en_setFlag s (by omega), if_neg (by omega)]
    rfl
  | reset t' =>
    cases h
    by_cases ht : t' = t
    · simp [State.en, Instr.enables, ht]
    · simp [State.en, Instr.enables, ht, Ne.symm ht]
  | setposu8 m x y w h' => cases h; simp [Instr.enables]
  | setpos m x y w h' => cases h; simp [Instr.enables]
  | commit => cases h; simp [Instr.enables]

/-- There is no write step at `SEQ` 0, nor at 10 to 15 (R26, R85). -/
theorem seqOp_eq_none_iff (n : BitVec 4) : seqOp n = none ↔ n = 0 ∨ 10 ≤ n.toNat := by
  revert n; decide

/-- `SEQ` after a write step: the next number, or 0 after step 9 (R147). -/
theorem State.advance_seq_toNat {s : State} (h : s.seq.toNat ≤ 9) :
    s.advance.seq.toNat = if s.seq.toNat = 9 then 0 else s.seq.toNat + 1 := by
  have hsucc : ∀ n : BitVec 4, n.toNat ≤ 9 →
      (if n = 9 then 0 else n + 1).toNat = if n.toNat = 9 then 0 else n.toNat + 1 := by decide
  rw [State.advance_seq, hsucc _ h]

/-- An extent has no transaction only where its edge overflows under `fault` (R125, R164). -/
theorem extentEvent_error {s : State} {m : Mov} {a : Nat} {pos size : Byte} {f : Fault}
    (h : extentEvent s m a pos size = .error f) :
    f = .edgeOverflow m s.seq ∧ s.cfg.edgeOvf = .fault ∧ 255 < pos.toNat + size.toNat := by
  rw [extentEvent_eq] at h
  split at h
  · cases h
  · next hover =>
    obtain ⟨hovf, hsum⟩ := not_or.1 hover
    cases h
    cases hmode : s.cfg.edgeOvf with
    | fault => exact ⟨rfl, rfl, Nat.lt_of_not_le hsum⟩
    | wrap8 => exact absurd hmode hovf

/-- A write step has no transaction only where its rectangle breaks the contract of R24 under `fault` (R164). -/
theorem stepEvent_error {s : State} {op : SeqOp} {f : Fault} (h : stepEvent s op = .error f) :
    ∃ m, f = .edgeOverflow m s.seq ∧ s.cfg.edgeOvf = .fault ∧ ¬ (s.rect m).fits := by
  cases op with
  | control t => cases h
  | summary => cases h
  | horizontal m =>
    obtain ⟨hf, hovf, hsum⟩ := extentEvent_error h
    exact ⟨m, hf, hovf, fun hfits => Nat.not_le.2 hsum hfits.1⟩
  | vertical m =>
    obtain ⟨hf, hovf, hsum⟩ := extentEvent_error h
    exact ⟨m, hf, hovf, fun hfits => Nat.not_le.2 hsum hfits.2⟩

/-- Where a write step faults: `SEQ` selects none, or its edge overflows (R26, R164). -/
theorem commitStep_fault {s : State} {f : Fault} (h : commitStep s = .fault f) :
    (seqOp s.seq = none ∧ f = .illegalSeq s.seq) ∨
      ∃ m, f = .edgeOverflow m s.seq ∧ s.cfg.edgeOvf = .fault ∧ ¬ (s.rect m).fits := by
  unfold commitStep at h
  split at h
  · next hop => cases h; exact .inl ⟨hop, rfl⟩
  · split at h
    · next he => cases h; exact .inr (stepEvent_error he)
    · cases h

theorem commitStep_of_no_op {s : State} (h : seqOp s.seq = none) : commitStep s = .fault (.illegalSeq s.seq) := by
  simp only [commitStep, h]

end Sys2Proof.Machine
end

section
/-! What each step keeps (R22, R26): the canonical form of memory, bit 6 of the flag bytes, the order of `SEQ`. -/

namespace Sys2Proof.Machine

@[simp] theorem State.raiseIllegal_wb (s : State) (t : Slot) : s.raiseIllegal.wb t = s.wb t := State.respond_wb s _ t

/-- Taking a move from the port writes no byte of the target register space (R41, R59 (d)). -/
theorem takeMove_mem {s u : State} (h : takeMove s = .next u) : u.mem = s.mem := by
  obtain ⟨_, rfl⟩ | ⟨_, _, rfl⟩ | ⟨_, _, _, _, ⟨_, _, hexec⟩ | ⟨_, _, rfl⟩⟩ := takeMove_next h
  case inr.inr.inl =>
    obtain ⟨-, -, -, -, -, hmem⟩ := exec_frame hexec
    exact hmem
  all_goals rfl

/-- Taking a move from the port leaves `SEQ` or starts the write steps (R147, R180). -/
theorem takeMove_seq {s u : State} (h : takeMove s = .next u) : u.seq = s.seq ∨ u.seq = 1 := by
  obtain ⟨_, rfl⟩ | ⟨_, _, rfl⟩ | ⟨_, _, _, _, ⟨_, _, hexec⟩ | ⟨_, _, rfl⟩⟩ := takeMove_next h
  case inl => exact .inl rfl
  case inr.inl => exact .inr rfl
  case inr.inr.inl => exact (exec_seq hexec).imp_right And.right
  case inr.inr.inr => exact .inl rfl

theorem takeMove_bit6 {s u : State} (h : takeMove s = .next u) (t : Slot)
    (hs : (s.wb t).getLsbD 6 = false) : (u.wb t).getLsbD 6 = false := by
  obtain ⟨_, rfl⟩ | ⟨_, _, rfl⟩ | ⟨_, _, _, _, ⟨_, _, hexec⟩ | ⟨_, _, rfl⟩⟩ := takeMove_next h
  case inl => exact hs
  case inr.inl => simp
  case inr.inr.inl => exact exec_bit6 hexec t (by simpa using hs)
  case inr.inr.inr => simpa using hs

/-- A write step keeps the canonical form of memory. -/
theorem commitStep_mem_wf {s u : State} (h : commitStep s = .next u) (hs : s.mem.wf = true) : u.mem.wf = true := by
  obtain ⟨_, e, _, _, rfl⟩ := commitStep_next h
  rw [State.advance_mem]
  exact State.busWrite_mem_wf hs e

/-- A write step leaves the flag bytes alone (R148). -/
theorem commitStep_wb {s u : State} (h : commitStep s = .next u) (t : Slot) : u.wb t = s.wb t := by
  obtain ⟨_, e, _, _, rfl⟩ := commitStep_next h
  simp

/-- A write step that ends in a next state is one of the nine, and the next number follows, or 0 after step 9 (R147). -/
theorem commitStep_seq {s u : State} (h : commitStep s = .next u) :
    1 ≤ s.seq.toNat ∧ s.seq.toNat ≤ 9 ∧ u.seq.toNat = if s.seq.toNat = 9 then 0 else s.seq.toNat + 1 := by
  obtain ⟨op, e, hop, _, rfl⟩ := commitStep_next h
  have hnone : ¬ (s.seq = 0 ∨ 10 ≤ s.seq.toNat) := by rw [← seqOp_eq_none_iff, hop]; simp
  have hle : s.seq.toNat ≤ 9 := by omega
  exact ⟨by bv_omega, hle, State.advance_seq_toNat (s := s.busWrite e) hle⟩

theorem step_mem_wf {s u : State} (h : step s = .next u) (hs : s.mem.wf = true) : u.mem.wf = true := by
  obtain ⟨-, ⟨-, hmove⟩ | ⟨-, hwrite⟩⟩ := step_next h
  · rw [takeMove_mem hmove]; exact State.envMove_mem_wf hs
  · exact commitStep_mem_wf hwrite (State.envMove_mem_wf hs)

theorem step_bit6 {s u : State} (h : step s = .next u) (t : Slot)
    (hs : (s.wb t).getLsbD 6 = false) : (u.wb t).getLsbD 6 = false := by
  obtain ⟨-, ⟨-, hmove⟩ | ⟨-, hwrite⟩⟩ := step_next h
  · exact takeMove_bit6 hmove t (by simpa using hs)
  · rw [commitStep_wb hwrite]; simpa using hs

/-- The transitions of `SEQ`: the idle block stays or starts, the busy block goes on to the next write step (R147). -/
theorem step_seq {s u : State} (h : step s = .next u) :
    (s.seq.toNat = 0 ∧ u.seq.toNat ≤ 1) ∨ (1 ≤ s.seq.toNat ∧ s.seq.toNat ≤ 8 ∧ u.seq.toNat = s.seq.toNat + 1) ∨
      (s.seq.toNat = 9 ∧ u.seq.toNat = 0) := by
  obtain ⟨-, ⟨hidle, hmove⟩ | ⟨-, hwrite⟩⟩ := step_next h
  · refine .inl ⟨by simp [hidle], ?_⟩
    obtain hu | hu := takeMove_seq hmove
    · simp [hu, hidle]
    · simp [hu]
  · obtain ⟨hlo, hhi, hnext⟩ := commitStep_seq hwrite
    rw [State.envMove_seq] at hlo hhi hnext
    split at hnext <;> omega

/-- Settles O43: memory, `SEQ` and bit 6 each by the lemma of what a step does to it. -/
theorem stepKeepsInvariant : Obligations.StepKeepsInvariant := fun _ _ hs h =>
  { mem := step_mem_wf h hs.mem
    seq := by have := step_seq h; omega
    bit6 := fun t => step_bit6 h t (hs.bit6 t) }

/-- Settles O53: the transitions of `SEQ` over every step. -/
theorem seqOrder : Obligations.SeqOrder := fun _ _ h => step_seq h

end Sys2Proof.Machine
end

section
/-! The outputs and the enabled state of a slot after any commands (R27, R28, R58). -/

namespace Sys2Proof.Machine

/-- Any list of commands runs, and a slot's enabled state after it is what the commands make of it in turn (R28). -/
theorem execAll_en (is : List Instr) (s : State) :
    ∃ u, execAll is s = .next u ∧ ∀ t, u.en t = is.foldl (fun before i => i.enables t before) (s.en t) := by
  induction is generalizing s with
  | nil => exact ⟨s, rfl, fun _ => rfl⟩
  | cons i is ih =>
    obtain ⟨v, hv⟩ := exec_exists_next i s
    obtain ⟨u, hu, hen⟩ := ih v
    refine ⟨u, by simp only [execAll, hv, hu], fun t => ?_⟩
    rw [hen t, exec_en hv t, List.foldl_cons]

/-- Settles O16: by induction on the commands (`execAll_en`); the outputs read the enable bits by definition. -/
theorem flagIndependence : Obligations.FlagIndependence := by
  intro is s
  obtain ⟨u, hu, hen⟩ := execAll_en is s
  exact ⟨u, hu, fun t => ⟨hen t, rfl, u.enStatus_bit t, rfl⟩⟩

theorem State.busy_iff (s : State) : s.busy = true ↔ s.seq ≠ 0 := by simp [State.busy]

/-- Settles O17: the outputs of R27 and R58 read off the state. -/
theorem statusOutputs : Obligations.StatusOutputs := fun s =>
  ⟨s.busy_iff, s.cmdReady_iff, s.enStatus_bit, BitVec.getLsbD_of_ge _ _ le_rfl⟩

end Sys2Proof.Machine
end

section
/-! The environment's turn (R37). -/

namespace Sys2Proof.Machine

/-- What the environment's turn leaves in the shared register: its top three bits, and the free value below (R37). -/
theorem State.envMove_dispcnt {s : State} (h : s.mem.wf = true) :
    s.envMove.dispcnt = s.dispcnt.extractLsb' 13 3 ++ Config.envDraw s.envTick (s.dispcnt.extractLsb' 0 13) :=
  State.reg_setReg_same h _ _

/-- Settles O49: the laws of `State.envMove`, and the two parts of `DISPCNT` it joins. -/
theorem environmentTurn : Obligations.EnvironmentTurn := by
  intro s hmem
  have hcache : KeepsCache s s.envMove := ⟨s.envMove_wb, s.envMove_rect⟩
  rw [State.envMove_dispcnt hmem]
  exact ⟨hcache, rfl, rfl, rfl, rfl, rfl, rfl, fun _ hlow hhigh => State.envMove_readByte hlow hhigh,
    BitVec.extractLsb'_append_eq_left, BitVec.extractLsb'_append_eq_right⟩

end Sys2Proof.Machine
end

section
/-! The reset state (R38, R39). -/

namespace Sys2Proof.Machine

@[simp] theorem State.reset_wb (t : Slot) : State.reset.wb t = 0 := by cases t <;> rfl

@[simp] theorem State.reset_rect (m : Mov) : State.reset.rect m = ⟨0, 0, 0, 0⟩ := by cases m <;> rfl

/-- Every target register is zero after reset (R39). -/
@[simp] theorem State.reset_reg (a : Nat) : State.reset.reg a = 0 := by
  simp [State.reg, State.reset, Memory.readByte]

/-- Settles O40: the cache, the sequencer, the outputs and the registers of the reset state. -/
theorem resetStateValues : Obligations.ResetStateValues :=
  ⟨State.reset_wb, State.reset_rect, rfl, rfl, rfl, rfl, State.reset_reg _, State.reset_reg _,
    fun _ => State.reset_reg _, fun _ => State.reset_reg _, by rw [State.dispcnt, State.reset_reg]; rfl⟩

theorem State.reset_inv : State.reset.Inv where
  mem := rfl
  seq := by decide
  bit6 t := by simp

/-- Settles O42: the invariant at reset and the check of R7 on the parameters of the reset state. -/
theorem resetMeetsInvariant : Obligations.ResetMeetsInvariant := ⟨State.reset_inv, by decide⟩

end Sys2Proof.Machine
end

section
/-! The values of `SEQ` that no run reaches (R26). -/

namespace Sys2Proof.Machine

/-- A write step stops with the model's own fault exactly where `SEQ` selects no write step (R26). -/
theorem commitStep_illegalSeq_iff (s : State) (n : BitVec 4) :
    commitStep s = .fault (.illegalSeq n) ↔ s.seq = n ∧ (n = 0 ∨ 10 ≤ n.toNat) := by
  rw [← seqOp_eq_none_iff]
  constructor
  · intro h
    obtain ⟨hop, hf⟩ | ⟨_, hf, -⟩ := commitStep_fault h
    · cases hf; exact ⟨rfl, hop⟩
    · cases hf
  · rintro ⟨rfl, hop⟩
    exact commitStep_of_no_op hop

/-- Settles O59: where `SEQ` selects no write step, and a busy block's step with such a `SEQ`. -/
theorem illegalSeqStops : Obligations.IllegalSeqStops := by
  refine ⟨commitStep_illegalSeq_iff, fun s hw hseq => ?_⟩
  rw [step_busy hw (by bv_omega), commitStep_illegalSeq_iff]
  exact ⟨rfl, .inr hseq⟩

end Sys2Proof.Machine
end

section
/-! What a step of the machine does to the target registers and the write trace (R50 to R53, R57, R59). -/

namespace Sys2Proof.Machine

/-- Taking a move from the port adds nothing to the write trace (R59 (d)). -/
theorem takeMove_trace {s u : State} (h : takeMove s = .next u) : u.trace = s.trace := by
  obtain ⟨_, rfl⟩ | ⟨_, _, rfl⟩ | ⟨_, _, _, _, ⟨_, _, hexec⟩ | ⟨_, _, rfl⟩⟩ := takeMove_next h
  case inr.inr.inl =>
    obtain ⟨-, -, -, -, htrace, -⟩ := exec_frame hexec
    exact htrace
  all_goals rfl

/-- What a step does to the target space and the trace after the environment's turn: an idle block nothing, a busy
block one transaction of the packer. -/
theorem step_publishes {s u : State} (h : step s = .next u) :
    (s.seq = 0 ∧ u.mem = s.envMove.mem ∧ u.trace = s.trace) ∨
    (s.seq ≠ 0 ∧ ∃ e, e.addr ∈ s.cfg.indices ∧ e.data &&& ~~~e.mask = 0 ∧ u = (s.envMove.busWrite e).advance) := by
  obtain ⟨-, ⟨hidle, hmove⟩ | ⟨hbusy, hwrite⟩⟩ := step_next h
  · exact .inl ⟨hidle, takeMove_mem hmove, (takeMove_trace hmove).trans s.envMove_trace⟩
  · obtain ⟨_, e, _, he, hu⟩ := commitStep_next hwrite
    obtain ⟨haddr, hdata⟩ := stepEvent_shape he
    exact .inr ⟨hbusy, e, haddr, hdata, hu⟩

theorem step_cfg {s u : State} (h : step s = .next u) : u.cfg = s.cfg := (step_keepsSetup h).1

/-- A transaction changes no byte outside the register it addresses (R53). -/
theorem State.busWrite_readByte {s : State} {e : WriteEvent} {x : Nat} (h0 : x ≠ regAddr s.cfg e.addr)
    (h1 : x ≠ regAddr s.cfg e.addr + 1) : (s.busWrite e).mem.readByte x = s.mem.readByte x :=
  State.readByte_setReg_ne _ h0 h1

/-- Settles O33: the parts a transaction and the advance of `SEQ` leave alone, and the bytes it does not address. -/
theorem writeStepFrame : Obligations.WriteStepFrame := by
  intro s op e hop he
  refine ⟨_, commitStep_of_event hop he, ⟨by simp, by simp⟩, by simp, by simp, by simp, by simp, by simp,
    fun a h0 h1 => ?_⟩
  rw [State.advance_mem]
  exact State.busWrite_readByte h0 h1

/-- The environment's turn changes no byte outside the seven registers: `DISPCNT` is one of them (R37). -/
theorem State.envMove_readByte_foreign {s : State} {x : Nat} (hx : s.cfg.foreign x) :
    s.envMove.mem.readByte x = s.mem.readByte x := by
  obtain ⟨h0, h1⟩ := hx s.cfg.dispcntAddr (by simp [Config.indices])
  exact State.envMove_readByte h0 h1

/-- Settles O51: the environment's turn and the block's transaction each address one of the seven registers. -/
theorem onlySevenRegistersReached : Obligations.OnlySevenRegistersReached := by
  intro s u h x hx
  obtain ⟨-, hmem, -⟩ | ⟨-, e, haddr, -, rfl⟩ := step_publishes h
  · rw [hmem, State.envMove_readByte_foreign hx]
  · obtain ⟨h0, h1⟩ := hx e.addr haddr
    rw [State.advance_mem, State.busWrite_readByte (s := s.envMove) h0 h1, State.envMove_readByte_foreign hx]

/-- Settles O54: an idle block adds no event, a busy one its transaction. -/
theorem traceGrowth : Obligations.TraceGrowth := by
  intro s u h
  obtain ⟨hidle, -, htrace⟩ | ⟨hbusy, e, haddr, hdata, rfl⟩ := step_publishes h
  · exact .inl ⟨hidle, htrace⟩
  · exact .inr ⟨hbusy, e, by simp, hdata, haddr⟩

/-- The environment's turn leaves the other registers alone (R37). -/
theorem State.envMove_reg_of_ne {s : State} {a : Nat} (ha : a ≠ s.cfg.dispcntAddr) : s.envMove.reg a = s.reg a :=
  State.reg_setReg_ne _ ha

/-- Under R7 the six window registers, the indices before the last, are none of them `DISPCNT`. -/
theorem ne_dispcntAddr_of_window {c : Config} (h : c.wellFormed = true) {a : Nat} (ha : a ∈ c.indices.dropLast) :
    a ≠ c.dispcntAddr := by
  obtain ⟨-, -, hnodup⟩ := c.wellFormed_iff.1 h
  have hsplit : c.indices = c.indices.dropLast ++ [c.dispcntAddr] := rfl
  rw [hsplit] at hnodup
  obtain ⟨-, -, hdisjoint⟩ := List.nodup_append.1 hnodup
  exact hdisjoint a ha _ (List.mem_singleton_self _)

/-- Settles O50: after a step of an idle block the registers are those after the environment's turn. -/
theorem settersPublishNothing : Obligations.SettersPublishNothing := by
  intro s u hwf hidle h
  obtain ⟨hconf, -⟩ := step_next h
  obtain ⟨-, hmem, htrace⟩ | ⟨hbusy, -⟩ := step_publishes h
  · have hcfg := step_cfg h
    have hreg : ∀ a, u.reg a = s.envMove.reg a := State.reg_congr hcfg hmem
    have hwindow : ∀ a ∈ s.cfg.indices.dropLast, u.reg a = s.reg a := fun a ha =>
      (hreg a).trans (State.envMove_reg_of_ne (ne_dispcntAddr_of_window hconf ha))
    have hdispcnt : u.dispcnt = s.envMove.dispcnt := by rw [State.dispcnt, hreg, hcfg]; rfl
    simp only [State.winctlA, State.winctlB, State.winh, State.winv, hcfg]
    refine ⟨htrace, hwindow _ (by simp [Config.indices]), hwindow _ (by simp [Config.indices]),
      fun m => hwindow _ (by cases m <;> simp [Config.indices, Mov.id]),
      fun m => hwindow _ (by cases m <;> simp [Config.indices, Mov.id]), ?_⟩
    rw [hdispcnt, State.envMove_dispcnt hwf, BitVec.extractLsb'_append_eq_left]
  · exact absurd hidle hbusy

end Sys2Proof.Machine
end

section
/-! The registers as what the write trace makes of zero (R53, R57). -/

namespace Sys2Proof.Machine

theorem replay_concat (trace : List WriteEvent) (e : WriteEvent) :
    replay (trace ++ [e]) = e.onRegs (replay trace) := by
  funext a
  simp [replay, WriteEvent.onRegs, eq_comm]

/-- Events whose data is zero leave a register that was zero at zero. -/
theorem replay_of_zero_data {trace : List WriteEvent} (h : ∀ e ∈ trace, e.data = 0) (a : Nat) :
    replay trace a = 0 := by
  induction trace using List.reverseRecOn with
  | nil => rfl
  | append_singleton trace e ih =>
    have hprev := ih fun e' he' => h e' (by simp [he'])
    simp [replay_concat, WriteEvent.onRegs, WriteEvent.merge, hprev, h e (by simp)]

theorem State.traced_iff (s : State) : s.traced ↔ RegsAre s (replay s.trace) :=
  ⟨fun ⟨hwf, hbits⟩ => ⟨hwf, hbits⟩, fun ⟨hwf, hbits⟩ => ⟨hwf, hbits⟩⟩

/-- The table of registers is about the parameters and the target space only. -/
theorem RegsAre.congr {s u : State} {regs : Nat → Reg16} (h : RegsAre s regs) (hc : u.cfg = s.cfg)
    (hm : u.mem = s.mem) : RegsAre u regs :=
  ⟨hm ▸ h.wf, fun a k hk ha => by rw [State.reg_congr hc hm]; exact h.bits a k hk (hc ▸ ha)⟩

/-- Settles O45: the environment's turn keeps the table of registers `replay` makes, and a transaction takes the
registers and the trace on together (`replay_concat`). -/
theorem stepKeepsTraced : Obligations.StepKeepsTraced := by
  intro s u hs h
  rw [State.traced_iff] at hs ⊢
  have hturn : RegsAre s.envMove (replay s.trace) := hs.envMove
  obtain ⟨-, hmem, htrace⟩ | ⟨-, e, -, -, rfl⟩ := step_publishes h
  · have hcfg : u.cfg = s.cfg := step_cfg h
    rw [htrace]
    exact hturn.congr hcfg hmem
  · have htrace : (s.envMove.busWrite e).advance.trace = s.trace ++ [e] := by simp
    rw [htrace, replay_concat]
    exact hturn.write e

/-- Settles O44: the nine events of the reset carry zero data, and every register is zero. -/
theorem resetMeetsTraced : Obligations.ResetMeetsTraced := by
  have hzero : ∀ e ∈ State.reset.trace, e.data = 0 := by decide
  exact ⟨rfl, fun a k _ _ => by rw [State.reset_reg, replay_of_zero_data hzero]⟩

end Sys2Proof.Machine
end

section
/-! Field writes and register bytes (R53, R54, R62). -/

namespace Sys2Proof.Machine

/-- The mask of a field write is the field's bits (R53). -/
theorem fieldWrite_mask_bit (a lo len : Nat) (v : BitVec len) {k : Nat} (hk : k < 16) :
    (fieldWrite a lo len v).mask.getLsbD k = (decide (lo ≤ k) && decide (k < lo + len)) := by
  have hsub : k - lo < 16 := by omega
  simp only [fieldWrite, BitVec.getLsbD_shiftLeft, BitVec.getLsbD_ofNat, Nat.testBit_two_pow_sub_one, hk, hsub]
  by_cases hlo : lo ≤ k
  · simp [hlo, Nat.sub_lt_iff_lt_add' hlo]
  · simp [hlo, Nat.lt_of_not_le hlo]

/-- The data of a field write is the value, moved to the field's place (R53). -/
theorem fieldWrite_data_bit (a lo len : Nat) (v : BitVec len) {k : Nat} (hk : k < 16) :
    (fieldWrite a lo len v).data.getLsbD k = (decide (lo ≤ k) && v.getLsbD (k - lo)) := by
  by_cases hlo : lo ≤ k
  · simp [fieldWrite, hk, hlo]
  · simp [fieldWrite, hlo, Nat.lt_of_not_le hlo]

/-- A field write merges the value into the field and keeps the other bits (R53). -/
theorem fieldWrite_merge_bit (a lo len : Nat) (v : BitVec len) (old : Reg16) {k : Nat} (hk : k < 16) :
    ((fieldWrite a lo len v).merge old).getLsbD k =
      if lo ≤ k ∧ k < lo + len then v.getLsbD (k - lo) else old.getLsbD k := by
  rw [WriteEvent.merge_bit _ _ hk, fieldWrite_mask_bit _ _ _ _ hk, fieldWrite_data_bit _ _ _ _ hk]
  by_cases hfield : lo ≤ k ∧ k < lo + len
  · simp [hfield]
  · simp [hfield, ← Bool.decide_and]

theorem memWrite_eq (a : Nat) (v : Reg16) : memWrite a v = ⟨a, 0xFFFF, v⟩ := by simp [memWrite, fieldWrite]

/-- The transactions of the packer have four masks: a low byte, a high byte, a whole register, the top three bits. -/
theorem stepEvent_mask {s : State} {op : SeqOp} {e : WriteEvent} (h : stepEvent s op = .ok e) :
    e.mask = 0x00FF ∨ e.mask = 0xFF00 ∨ e.mask = 0xFFFF ∨ e.mask = 0xE000 := by
  cases op with
  | control t =>
    rw [controlEvent_eq] at h
    cases h
    cases t with
    | win0 | out => exact .inl rfl
    | win1 | obj => exact .inr (.inl rfl)
  | horizontal m =>
    simp only [stepEvent, extentEvent_eq] at h
    split at h
    · cases h; exact .inr (.inr (.inl rfl))
    · cases h
  | vertical m =>
    simp only [stepEvent, extentEvent_eq] at h
    split at h
    · cases h; exact .inr (.inr (.inl rfl))
    · cases h
  | summary =>
    rw [summaryEvent_eq] at h
    cases h
    exact .inr (.inr (.inr rfl))

/-- Settles O22: the transaction bit by bit, its effect on the registers by `State.busWrite_reg`, and the masks. -/
theorem fieldWriteMerges : Obligations.FieldWriteMerges := by
  refine ⟨fun s a lo len v hwf _ hfits => ?_, fun s a v hwf => ⟨rfl, ?_⟩, fun _ _ _ h => stepEvent_mask h⟩
  · have hreg : (s.busWrite (fieldWrite a lo len v)).reg a = (fieldWrite a lo len v).merge (s.reg a) :=
      (State.busWrite_reg hwf _ a).trans (if_pos rfl)
    refine ⟨rfl, fun k hk => fieldWrite_mask_bit _ _ _ _ hk, fun k hk => fieldWrite_data_bit _ _ _ _ hk,
      fun k hk => ?field, fun k hk => ?outside, fun b hb => (State.busWrite_reg hwf _ b).trans (if_neg hb)⟩
    case field => rw [hreg, fieldWrite_merge_bit _ _ _ _ _ (by omega), if_pos (by omega), Nat.add_sub_cancel_left]
    case outside =>
      by_cases hk16 : k < 16
      · rw [hreg, fieldWrite_merge_bit _ _ _ _ _ hk16, if_neg (by omega)]
      · rw [BitVec.getLsbD_of_ge _ _ (Nat.not_lt.1 hk16), BitVec.getLsbD_of_ge _ _ (Nat.not_lt.1 hk16)]
  · rw [memWrite_eq, State.busWrite_reg hwf, if_pos rfl, WriteEvent.merge_full]

/-- A byte moved to the upper half of a register. -/
theorem setWidth_shiftLeft_eight (v : Byte) : v.setWidth 16 <<< 8 = v ++ (0 : Byte) := by
  revert v; decide

/-- Settles O23: the control-byte transaction at each of the four slots. -/
theorem slotPlacement : Obligations.SlotPlacement := by
  refine ⟨fun _ => rfl, fun s => ⟨?_, ?_, ?_, ?_⟩⟩
  case refine_1 => simp [controlEvent_eq, Slot.id]
  case refine_2 => simp [controlEvent_eq, Slot.id, setWidth_shiftLeft_eight]
  case refine_3 => simp [controlEvent_eq, Slot.id]
  case refine_4 => simp [controlEvent_eq, Slot.id, setWidth_shiftLeft_eight]

/-- Settles O24: the two byte writes of a register write, read back. -/
theorem littleEndianRegisters : Obligations.LittleEndianRegisters := by
  intro s a v hwf
  have hlow := Memory.wf_writeByte hwf (regAddr s.cfg a) (v.extractLsb' 0 8)
  refine ⟨?_, Memory.readByte_writeByte_same hlow _ _, State.reg_setReg_same hwf a v⟩
  exact (Memory.readByte_writeByte_ne _ (Nat.ne_of_lt (Nat.lt_succ_self _))).trans
    (Memory.readByte_writeByte_same hwf _ _)

end Sys2Proof.Machine
end

section
/-! The block has no read channel (R51): with the target space blanked out, a state determines how its step ends. -/

namespace Sys2Proof.Machine

/-- The state with the target register space and the environment's turn counter blanked out. -/
def State.blank (s : State) : State := { s with mem := [], envTick := 0 }

/-- The end of a step, the next state's target register space blanked out. -/
def blankOutcome : Host.Outcome State Fault Refusal → Host.Outcome State Fault Refusal
  | .next s => .next s.blank
  | .fault f => .fault f
  | .refused r => .refused r

/-- Agreement up to the target space is equality of the blanked states. -/
theorem agreeButMem_iff {s u : State} : AgreeButMem s u ↔ s.blank = u.blank := by
  constructor
  · intro h
    have hwb0 : u.wb0 = s.wb0 := h.wb .win0
    have hwb1 : u.wb1 = s.wb1 := h.wb .win1
    have hwb2 : u.wb2 = s.wb2 := h.wb .out
    have hwb3 : u.wb3 = s.wb3 := h.wb .obj
    have hrect0 : u.rect0 = s.rect0 := h.rect .win0
    have hrect1 : u.rect1 = s.rect1 := h.rect .win1
    simp only [State.blank, h.cfg, h.wasReset, hwb0, hwb1, hwb2, hwb3, hrect0, hrect1, h.seq, h.resp, h.trace, h.host]
  · intro h
    simp only [State.blank, State.mk.injEq] at h
    obtain ⟨hcfg, hreset, hwb0, hwb1, hwb2, hwb3, hrect0, hrect1, hseq, hresp, -, htrace, hhost, -⟩ := h
    exact
      { cfg := hcfg.symm, wasReset := hreset.symm, seq := hseq.symm, resp := hresp.symm, trace := htrace.symm
        host := hhost.symm
        wb := fun t => by cases t <;> simp [State.wb, hwb0, hwb1, hwb2, hwb3]
        rect := fun m => by cases m <;> simp [State.rect, hrect0, hrect1] }

@[simp] theorem State.blank_blank (s : State) : s.blank.blank = s.blank := rfl

@[simp] theorem State.envMove_blank (s : State) : s.envMove.blank = s.blank := rfl

@[simp] theorem State.blank_wb (s : State) (t : Slot) : s.blank.wb t = s.wb t := by cases t <;> rfl

@[simp] theorem State.blank_rect (s : State) (m : Mov) : s.blank.rect m = s.rect m := by cases m <;> rfl

theorem State.setWb_blank (s : State) (t : Slot) (v : Byte) : (s.setWb t v).blank = s.blank.setWb t v := by
  cases t <;> rfl

theorem State.setRect_blank (s : State) (m : Mov) (r : Rect) : (s.setRect m r).blank = s.blank.setRect m r := by
  cases m <;> rfl

theorem State.respond_blank (s : State) (r : Resp) : (s.respond r).blank = s.blank.respond r := rfl

theorem State.setFlag_blank (s : State) (t : Slot) (bit : Nat) (v : Bool) :
    (s.setFlag t bit v).blank = s.blank.setFlag t bit v := by
  simp only [State.setFlag, State.respond_blank, State.setWb_blank, State.blank_wb]

theorem State.advance_blank (s : State) : s.advance.blank = s.blank.advance := by
  have hseq : s.blank.seq = s.seq := rfl
  unfold State.advance
  rw [hseq]
  split <;> rfl

/-- A transaction reads a register to merge it, and what it read goes nowhere but into that register. -/
theorem State.busWrite_blank (s : State) (e : WriteEvent) : (s.busWrite e).blank = (s.blank.busWrite e).blank := rfl

/-- A command reads no target register. -/
theorem exec_blank (i : Instr) (s : State) : blankOutcome (exec i s) = exec i s.blank := by
  cases i with
  | enable t => exact congrArg Host.Outcome.next (s.setFlag_blank ..)
  | disable t => exact congrArg Host.Outcome.next (s.setFlag_blank ..)
  | setblend t v => exact congrArg Host.Outcome.next (s.setFlag_blank ..)
  | setobj t v => exact congrArg Host.Outcome.next (s.setFlag_blank ..)
  | setbg t bg v => exact congrArg Host.Outcome.next (s.setFlag_blank ..)
  | reset t => exact congrArg (fun v : State => Host.Outcome.next (v.respond .ok)) (s.setWb_blank t 0)
  | setposu8 m x y w h => exact congrArg (fun v : State => Host.Outcome.next (v.respond .ok)) (s.setRect_blank ..)
  | setpos m x y w h => exact congrArg (fun v : State => Host.Outcome.next (v.respond .ok)) (s.setRect_blank ..)
  | commit => rfl

theorem takeMove_blank (s : State) : blankOutcome (takeMove s) = takeMove s.blank := by
  have hhost : s.blank.host = s.host := rfl
  have hreset : s.blank.wasReset = s.wasReset := rfl
  unfold takeMove
  rw [hhost, hreset]
  rcases s.host with _ | ⟨c | _, rest⟩
  case nil => rfl
  case cons.reset => rfl
  case cons.command =>
    cases s.wasReset with
    | false => rfl
    | true =>
      simp only [if_true, takeCommand]
      cases decode c with
      | error e => rfl
      | ok i => exact exec_blank i s.takeHost

/-- A write step's transaction is made from the cache and the parameters. -/
theorem stepEvent_blank (s : State) (op : SeqOp) : stepEvent s.blank op = stepEvent s op := by
  cases op with
  | control t => simp only [stepEvent, State.blank_wb]; rfl
  | horizontal m => simp only [stepEvent, State.blank_rect]; rfl
  | vertical m => simp only [stepEvent, State.blank_rect]; rfl
  | summary => rfl

theorem commitStep_blank (s : State) : blankOutcome (commitStep s) = blankOutcome (commitStep s.blank) := by
  have hseq : s.blank.seq = s.seq := rfl
  unfold commitStep
  rw [hseq]
  cases seqOp s.seq with
  | none => rfl
  | some op =>
    simp only [stepEvent_blank]
    cases stepEvent s op with
    | error f => rfl
    | ok e => simp only [blankOutcome, State.advance_blank, ← State.busWrite_blank]

/-- How a step ends, the target space aside, is a function of the state with its target space blanked out (R51). -/
theorem step_blank (s : State) : blankOutcome (step s) = blankOutcome (step s.blank) := by
  by_cases hw : s.cfg.wellFormed = true
  · by_cases hseq : s.seq = 0
    · rw [step_idle hw hseq, step_idle (s := s.blank) hw hseq, takeMove_blank, takeMove_blank]
      simp only [State.envMove_blank, State.blank_blank]
    · rw [step_busy hw hseq, step_busy (s := s.blank) hw hseq, commitStep_blank, commitStep_blank s.blank.envMove]
      simp only [State.envMove_blank, State.blank_blank]
  · rw [step_of_not_wellFormed hw, step_of_not_wellFormed (s := s.blank) hw]

/-- Steps that end alike when blanked end alike, up to the target space. -/
theorem agree_of_blankOutcome_eq {o p : Host.Outcome State Fault Refusal} (h : blankOutcome o = blankOutcome p) :
    (∃ s u, o = .next s ∧ p = .next u ∧ AgreeButMem s u) ∨ (∃ f, o = .fault f ∧ p = .fault f) ∨
      (∃ r, o = .refused r ∧ p = .refused r) := by
  cases o <;> cases p <;> simp only [blankOutcome, reduceCtorEq, Host.Outcome.next.injEq, Host.Outcome.fault.injEq,
    Host.Outcome.refused.injEq] at h
  case next.next s u => exact .inl ⟨s, u, rfl, rfl, agreeButMem_iff.2 h⟩
  case fault.fault f _ => exact .inr (.inl ⟨f, rfl, h ▸ rfl⟩)
  case refused.refused r _ => exact .inr (.inr ⟨r, rfl, h ▸ rfl⟩)

/-- Settles O52: both steps end as the step of the one blanked state does. -/
theorem blockNeverReads : Obligations.BlockNeverReads := by
  intro s u h
  apply agree_of_blankOutcome_eq
  calc blankOutcome (step s) = blankOutcome (step s.blank) := step_blank s
    _ = blankOutcome (step u.blank) := by rw [agreeButMem_iff.1 h]
    _ = blankOutcome (step u) := (step_blank u).symm

end Sys2Proof.Machine
end

section
/-! The command a step runs, and the port of a busy block (R58). -/

namespace Sys2Proof.Machine

/-- A legal command on the port of a block reset before runs, off the port. -/
theorem takeMove_of_decode {s : State} {c : Command} {rest : List HostMove} {i : Instr} (hreset : s.wasReset = true)
    (hhost : s.host = .command c :: rest) (hdec : decode c = .ok i) :
    takeMove s = exec i { s with host := rest } := by
  simp only [takeMove, takeCommand, hhost, hreset, hdec, if_true, State.takeHost, List.tail_cons]

/-- Settles O47: the idle block's turn on a legal command, and the parts a write step leaves alone. -/
theorem stepRunsDecoded : Obligations.StepRunsDecoded := by
  refine ⟨fun s c rest i hw hreset hidle hhost hdec => ?_, fun s u hbusy h => ?_⟩
  · rw [step_idle hw hidle]
    exact takeMove_of_decode hreset hhost hdec
  · obtain ⟨hidle, -⟩ | ⟨-, e, -, -, rfl⟩ := step_publishes h
    · exact absurd hidle hbusy
    · simp

end Sys2Proof.Machine
end

section
/-! The command word by its fields and by the rows of the opcode map, and decoding against encoding (R70 to R79). -/

namespace Sys2Proof

/-! A field as the bits under its mask. -/

/-- The bits of an `n`-bit word that the field of `len` bits at bit `lo` takes. -/
def fieldMask (n lo len : Nat) : BitVec n := (BitVec.allOnes len).setWidth n <<< lo

/-- A field put back at its place is the word under the field's mask. -/
theorem extractLsb'_shiftLeft {n : Nat} (w : BitVec n) (lo len : Nat) :
    (w.extractLsb' lo len).setWidth n <<< lo = w &&& fieldMask n lo len := by
  ext k hk
  by_cases hlo : k < lo
  · simp [fieldMask, hlo]
  · simp [fieldMask, hlo, Nat.add_sub_cancel' (Nat.le_of_not_lt hlo), BitVec.getLsbD_eq_getElem hk, Bool.and_comm]

/-- A field is zero exactly when its mask finds no 1 in the word. -/
theorem and_fieldMask_eq_zero (w : Reg16) {lo len : Nat} (hfits : lo + len ≤ 16) :
    w &&& fieldMask 16 lo len = 0 ↔ w.extractLsb' lo len = 0 := by
  constructor
  · intro h
    ext k hk
    have hmask : (fieldMask 16 lo len).getLsbD (lo + k) = true := by simp [fieldMask, hk]; omega
    simpa using bit_of_zeros h hmask
  · intro h
    rw [← extractLsb'_shiftLeft, h]
    simp

/-- Two masks as one: the first holds all of the match `p`, the second wants zeros. -/
theorem and_or_eq_iff {w a b p : Reg16} (ha : p &&& a = p) (hb : p &&& b = 0) :
    w &&& (a ||| b) = p ↔ w &&& a = p ∧ w &&& b = 0 := by
  constructor
  · intro h
    have hsub : ∀ m, (a ||| b) &&& m = m → w &&& m = p &&& m := fun m hm => by rw [← h, BitVec.and_assoc, hm]
    rw [hsub a (by ext; simp +contextual), hsub b (by ext; simp +contextual)]
    exact ⟨ha, hb⟩
  · rintro ⟨hwa, hwb⟩
    rw [BitVec.and_or_distrib_left, hwa, hwb]
    exact BitVec.or_zero

theorem and_or_eq_zero {w a b : Reg16} : w &&& (a ||| b) = 0 ↔ w &&& a = 0 ∧ w &&& b = 0 :=
  and_or_eq_iff BitVec.zero_and BitVec.zero_and

/-- A word is its match under a mask and what stands in the rest. -/
theorem pattern_or_rest {w m p rest : Reg16} (hm : w &&& m = p) (hall : m ||| rest = BitVec.allOnes 16) :
    p ||| (w &&& rest) = w := by
  rw [← hm, ← BitVec.and_or_distrib_left, hall, BitVec.and_allOnes]

/-! The decoded fields, encoded again (R72 to R75). -/

theorem tField_field (w : Reg16) : (tField w).field = w &&& 0x0300 := by
  have hslot : ∀ t : BitVec 2, (Slot.ofField t).field = t.setWidth 16 <<< 8 := by decide
  exact (hslot _).trans (extractLsb'_shiftLeft w 8 2)

theorem mField_field (w : Reg16) : (mField w).field = w &&& 0x0100 := by
  have hbit : w &&& 0x0100 = if w.getLsbD 8 then 0x0100 else 0 := BitVec.and_twoPow w 8
  rw [hbit, mField]
  cases w.getLsbD 8 <;> rfl

theorem bgField_field (w : Reg16) : (bgField w).setWidth 16 <<< 4 = w &&& 0x0030 := extractLsb'_shiftLeft w 4 2

theorem vField_field (w : Reg16) : boolField (vField w) = w &&& 0x0001 := by
  have hbit : w &&& 0x0001 = if w.getLsbD 0 then 0x0001 else 0 := BitVec.and_twoPow w 0
  rw [hbit, vField]
  cases w.getLsbD 0 <;> rfl

/-! A command's row of the opcode map. -/

/-- The field `op` of a command (R78). -/
def Instr.op : Instr → Nat
  | .enable _ => 0x1
  | .disable _ => 0x2
  | .setblend _ _ => 0x3
  | .setobj _ _ => 0x4
  | .setbg _ _ _ => 0x5
  | .reset _ => 0x6
  | .setposu8 _ _ _ _ _ => 0x8
  | .setpos _ _ _ _ _ => 0x9
  | .commit => 0xC

/-- The "must be 0" bits of a command's word (R71). -/
def Instr.zeros : Instr → Reg16
  | .enable _ | .disable _ | .reset _ => 0x0CFF
  | .setblend _ _ | .setobj _ _ => 0x0CFE
  | .setbg _ _ _ => 0x0CCE
  | .setposu8 _ _ _ _ _ | .setpos _ _ _ _ _ => 0x0EFF
  | .commit => 0x0FFF

/-- The row of the opcode map that a command's word lies in (R78). -/
def Instr.row : Instr → OpcodeRow
  | .enable _ => ⟨"ENABLE", 0x1000, 0xFCFF⟩
  | .disable _ => ⟨"DISABLE", 0x2000, 0xFCFF⟩
  | .setblend _ _ => ⟨"SETBLEND", 0x3000, 0xFCFE⟩
  | .setobj _ _ => ⟨"SETOBJ", 0x4000, 0xFCFE⟩
  | .setbg _ _ _ => ⟨"SETBG", 0x5000, 0xFCCE⟩
  | .reset _ => ⟨"RESET", 0x6000, 0xFCFF⟩
  | .setposu8 _ _ _ _ _ => ⟨"SETPOSU8", 0x8000, 0xFEFF⟩
  | .setpos _ _ _ _ _ => ⟨"SETPOS", 0x9000, 0xFEFF⟩
  | .commit => ⟨"COMMIT", 0xC000, 0xFFFF⟩

theorem Instr.row_mem (i : Instr) : i.row ∈ opcodeTable := by cases i <;> simp only [Instr.row] <;> decide

theorem Instr.row_mnemonic (i : Instr) : i.row.mnemonic = i.mnemonic := by cases i <;> rfl

theorem Instr.row_mask (i : Instr) : i.row.mask = 0xF000 ||| i.zeros := by
  cases i <;> simp only [Instr.row, Instr.zeros] <;> decide

theorem Instr.row_pattern (i : Instr) : i.row.pattern = (BitVec.ofNat 4 i.op).setWidth 16 <<< 12 := by
  cases i <;> simp only [Instr.row, Instr.op] <;> decide

theorem Instr.op_lt (i : Instr) : i.op < 16 := by cases i <;> simp only [Instr.op] <;> decide

/-- A mnemonic names one row. -/
theorem row_eq_of_mnemonic {r r' : OpcodeRow} (hr : r ∈ opcodeTable) (hr' : r' ∈ opcodeTable)
    (h : r.mnemonic = r'.mnemonic) : r = r' := by
  have hall : ∀ r ∈ opcodeTable, ∀ r' ∈ opcodeTable, r.mnemonic = r'.mnemonic → r = r' := by decide
  exact hall r hr r' hr' h

theorem and_op_eq_iff (w : Reg16) (op : BitVec 4) :
    w &&& (0xF000 : Reg16) = op.setWidth 16 <<< 12 ↔ opField w = op := by
  have hinj : ∀ op op' : BitVec 4, op'.setWidth 16 <<< 12 = op.setWidth 16 <<< 12 → op' = op := by decide
  have hfield : (opField w).setWidth 16 <<< 12 = w &&& (0xF000 : Reg16) := extractLsb'_shiftLeft w 12 4
  rw [← hfield]
  exact ⟨hinj _ _, fun h => by rw [h]⟩

/-- A row's mask takes the field `op` whole and the row's "must be 0" bits below it (R71, R78). -/
theorem row_match_iff (i : Instr) (w : Reg16) :
    w &&& i.row.mask = i.row.pattern ↔ (opField w).toNat = i.op ∧ w &&& i.zeros = 0 := by
  obtain ⟨hop, hzeros⟩ : i.row.pattern &&& 0xF000 = i.row.pattern ∧ i.row.pattern &&& i.zeros = 0 := by
    cases i <;> simp only [Instr.row, Instr.zeros] <;> decide
  rw [i.row_mask, and_or_eq_iff hop hzeros, i.row_pattern, and_op_eq_iff, BitVec.toNat_eq, BitVec.toNat_ofNat,
    Nat.mod_eq_of_lt i.op_lt]

/-! The decoder. -/

/-- The operands of a command are those the fields of the word and the arguments hold (R71 to R76). -/
def Instr.readFrom (c : Command) : Instr → Prop
  | .enable t | .disable t | .reset t => t = tField c.cmd
  | .setblend t v | .setobj t v => t = tField c.cmd ∧ v = vField c.cmd
  | .setbg t bg v => t = tField c.cmd ∧ bg = bgField c.cmd ∧ v = vField c.cmd
  | .setposu8 m x y w h =>
    m = mField c.cmd ∧ x = c.arg0.extractLsb' 24 8 ∧ y = c.arg0.extractLsb' 16 8 ∧ w = c.arg0.extractLsb' 8 8 ∧
      h = c.arg0.extractLsb' 0 8
  | .setpos m x y w h => m = mField c.cmd ∧ x = c.arg0 ∧ y = c.arg1 ∧ w = c.arg2 ∧ h = c.arg3
  | .commit => True

/-- Whatever a word and its arguments hold, each row has a command with these operands. -/
theorem exists_readFrom {r : OpcodeRow} (hr : r ∈ opcodeTable) (c : Command) :
    ∃ i : Instr, i.row = r ∧ i.readFrom c := by
  simp only [opcodeTable, List.mem_cons, List.not_mem_nil, or_false] at hr
  obtain rfl | rfl | rfl | rfl | rfl | rfl | rfl | rfl | rfl := hr
  · exact ⟨.enable _, rfl, rfl⟩
  · exact ⟨.disable _, rfl, rfl⟩
  · exact ⟨.setblend _ _, rfl, rfl, rfl⟩
  · exact ⟨.setobj _ _, rfl, rfl, rfl⟩
  · exact ⟨.setbg _ _ _, rfl, rfl, rfl, rfl⟩
  · exact ⟨.reset _, rfl, rfl⟩
  · exact ⟨.setposu8 _ _ _ _ _, rfl, rfl, rfl, rfl, rfl, rfl⟩
  · exact ⟨.setpos _ _ _ _ _, rfl, rfl, rfl, rfl, rfl, rfl⟩
  · exact ⟨.commit, rfl, trivial⟩

theorem decodeZeros_of_zeros {w z : Reg16} (h : w &&& z = 0) (i : Instr) : decodeZeros w z i = .ok i := if_pos h

theorem decodePos_of_zeros {w : Reg16} (h : w &&& 0x0EFF = 0) (i : Instr) : decodePos w i = .ok i := by
  obtain ⟨hz, h9⟩ : w &&& 0x0CFF = 0 ∧ w &&& 0x0200 = 0 := and_or_eq_zero.1 h
  have hbit : w.getLsbD 9 = false := bit_of_zeros h9 (by decide)
  simp only [decodePos, if_pos hz, hbit, Bool.false_eq_true, if_false]

/-- The decoder is the opcode map: a word is a command exactly when it lies in the command's row, and its fields and the
arguments are the operands (R71, R78). -/
theorem decode_eq_ok_iff {c : Command} {i : Instr} :
    decode c = .ok i ↔ c.cmd &&& i.row.mask = i.row.pattern ∧ i.readFrom c := by
  rw [row_match_iff]
  constructor
  · intro h
    obtain ⟨ho, hz, rfl⟩ | ⟨ho, hz, rfl⟩ | ⟨ho, hz, rfl⟩ | ⟨ho, hz, rfl⟩ | ⟨ho, hz, rfl⟩ | ⟨ho, hz, rfl⟩ |
      ⟨ho, hz, rfl⟩ | ⟨ho, hz, rfl⟩ | ⟨ho, hz, rfl⟩ := decode_cases h
    all_goals exact ⟨⟨ho, hz⟩, by simp only [Instr.readFrom, and_self]⟩
  · rintro ⟨⟨ho, hz⟩, hread⟩
    cases i with
    | setposu8 m x y w h | setpos m x y w h =>
      simp only [Instr.op, Instr.readFrom] at ho hread
      simp only [decode, ho, decodePos_of_zeros hz, hread]
    | _ =>
      simp only [Instr.op, Instr.zeros, Instr.readFrom] at ho hz hread
      simp only [decode, ho, decodeZeros_of_zeros hz, hread]

/-! The encoder's packed argument (R76). -/

/-- The four bytes of a rectangle packed into one argument. -/
def packBytes (x y w h : Byte) : Arg32 :=
  (x.setWidth 32 <<< 24) ||| (y.setWidth 32 <<< 16) ||| (w.setWidth 32 <<< 8) ||| h.setWidth 32

theorem packBytes_eq_append (x y w h : Byte) : packBytes x y w h = x ++ y ++ w ++ h := by
  have hwide := BitVec.setWidth_append_append_append_eq_shiftLeft_setWidth_or (w'''' := 32) (b := x) (b' := y)
    (b'' := w) (b''' := h)
  rw [BitVec.setWidth_eq] at hwide
  exact hwide.symm

theorem extractLsb'_append_bytes (x y w h : Byte) :
    (x ++ y ++ w ++ h).extractLsb' 24 8 = x ∧ (x ++ y ++ w ++ h).extractLsb' 16 8 = y ∧
      (x ++ y ++ w ++ h).extractLsb' 8 8 = w ∧ (x ++ y ++ w ++ h).extractLsb' 0 8 = h := by
  have hdrop : ∀ {n : Nat} (v : BitVec n) (b : Byte) (lo : Nat),
      (v ++ b).extractLsb' (lo + 8) 8 = v.extractLsb' lo 8 := fun v b lo =>
    (BitVec.extractLsb'_append_eq_of_le (Nat.le_add_left 8 lo)).trans (by rw [Nat.add_sub_cancel])
  refine ⟨?_, ?_, ?_, BitVec.extractLsb'_append_eq_right⟩
  · exact (hdrop _ h 16).trans ((hdrop _ w 8).trans BitVec.extractLsb'_append_eq_left)
  · exact (hdrop _ h 8).trans ((hdrop _ w 0).trans BitVec.extractLsb'_append_eq_right)
  · exact (hdrop _ h 0).trans BitVec.extractLsb'_append_eq_right

theorem extractLsb'_packBytes (x y w h : Byte) :
    (packBytes x y w h).extractLsb' 24 8 = x ∧ (packBytes x y w h).extractLsb' 16 8 = y ∧
      (packBytes x y w h).extractLsb' 8 8 = w ∧ (packBytes x y w h).extractLsb' 0 8 = h := by
  rw [packBytes_eq_append]
  exact extractLsb'_append_bytes x y w h

theorem packBytes_extractLsb' (a : Arg32) :
    packBytes (a.extractLsb' 24 8) (a.extractLsb' 16 8) (a.extractLsb' 8 8) (a.extractLsb' 0 8) = a := by
  rw [packBytes_eq_append, BitVec.extractLsb'_append_extractLsb'_eq_extractLsb' (start₁ := 16) (by decide),
    BitVec.extractLsb'_append_extractLsb'_eq_extractLsb' (start₁ := 8) (by decide),
    BitVec.extractLsb'_append_extractLsb'_eq_extractLsb' (start₁ := 0) (by decide)]
  exact BitVec.extractLsb'_eq_self

/-! Decoding what the encoder wrote, and encoding what the decoder read. -/

/-- The encoder's word lies in the command's row: `Laws.EncodesRow` for every command. -/
theorem encode_row_match (i : Instr) : (encode i).cmd &&& i.row.mask = i.row.pattern := by
  have hrow : Laws.EncodesRow.Statement i := by
    cases i with
    | enable t => exact Laws.EncodesRow.enable t
    | disable t => exact Laws.EncodesRow.disable t
    | setblend t v => exact Laws.EncodesRow.setblend t v
    | setobj t v => exact Laws.EncodesRow.setobj t v
    | setbg t bg v => exact Laws.EncodesRow.setbg t bg v
    | reset t => exact Laws.EncodesRow.reset t
    | setposu8 m x y w h => exact Laws.EncodesRow.setposu8 m x y w h
    | setpos m x y w h => exact Laws.EncodesRow.setpos m x y w h
    | commit => exact Laws.EncodesRow.commit
  obtain ⟨r, hr, hmnemonic, hcovers⟩ := hrow
  rw [← row_eq_of_mnemonic hr i.row_mem (hmnemonic.trans i.row_mnemonic.symm)]
  simpa [OpcodeRow.covers] using hcovers

/-- What the encoder writes into the fields and the arguments, the decoder reads there. -/
theorem readFrom_encode (i : Instr) : i.readFrom (encode i) := by
  cases i with
  | enable t | disable t | reset t => cases t <;> rfl
  | setblend t v | setobj t v => cases t <;> cases v <;> exact ⟨rfl, rfl⟩
  | setbg t bg v => simp only [Instr.readFrom]; revert bg v; cases t <;> decide
  | setposu8 m x y w h =>
    obtain ⟨hx, hy, hw, hh⟩ := extractLsb'_packBytes x y w h
    have hm : mField (0x8000 ||| m.field) = m := by cases m <;> rfl
    exact ⟨hm.symm, hx.symm, hy.symm, hw.symm, hh.symm⟩
  | setpos m x y w h =>
    have hm : mField (0x9000 ||| m.field) = m := by cases m <;> rfl
    exact ⟨hm.symm, rfl, rfl, rfl, rfl⟩
  | commit => trivial

theorem decode_encode (i : Instr) : decode (encode i) = .ok i :=
  decode_eq_ok_iff.2 ⟨encode_row_match i, readFrom_encode i⟩

/-- Settles O1: the word lies in the command's row, and the operands stand where the encoder put them. -/
theorem decodeOfEncode : Obligations.DecodeOfEncode := by
  intro i c hcmd hpacked hargs
  have hread := readFrom_encode i
  refine decode_eq_ok_iff.2 ⟨hcmd ▸ encode_row_match i, ?_⟩
  cases i with
  | setposu8 m x y w h => simpa only [Instr.readFrom, hcmd, hpacked m x y w h rfl] using hread
  | setpos m x y w h =>
    obtain ⟨rfl, rfl, rfl, rfl⟩ := hargs m x y w h rfl
    obtain ⟨hm, -⟩ := hread
    exact ⟨hcmd ▸ hm, rfl, rfl, rfl, rfl⟩
  | commit => trivial
  | _ => simpa only [Instr.readFrom, hcmd] using hread

/-- A legal word is the encoder's: its row's match, and its fields outside the row's mask. -/
theorem encode_cmd_of_decode {c : Command} {i : Instr} (h : decode c = .ok i) : (encode i).cmd = c.cmd := by
  obtain ⟨hrow, hread⟩ := decode_eq_ok_iff.1 h
  cases i with
  | enable t | disable t | reset t =>
    simp only [Instr.readFrom] at hread
    simp only [encode, Command.plain, hread, tField_field]
    exact pattern_or_rest (m := 0xFCFF) hrow (by decide)
  | setblend t v | setobj t v =>
    obtain ⟨rfl, rfl⟩ := hread
    simp only [encode, Command.plain, tField_field, vField_field, BitVec.or_assoc, ← BitVec.and_or_distrib_left]
    exact pattern_or_rest (m := 0xFCFE) hrow (by decide)
  | setbg t bg v =>
    obtain ⟨rfl, rfl, rfl⟩ := hread
    simp only [encode, Command.plain, tField_field, bgField_field, vField_field, BitVec.or_assoc,
      ← BitVec.and_or_distrib_left]
    exact pattern_or_rest (m := 0xFCCE) hrow (by decide)
  | setposu8 m x y w h | setpos m x y w h =>
    obtain ⟨rfl, -⟩ := hread
    simp only [encode, mField_field]
    exact pattern_or_rest (m := 0xFEFF) hrow (by decide)
  | commit => exact hrow.symm.trans BitVec.and_allOnes

/-- Settles O2: the word by `encode_cmd_of_decode`, the arguments as the decoder read them. -/
theorem encodeOfDecode : Obligations.EncodeOfDecode := by
  intro c i h
  have hcmd := encode_cmd_of_decode h
  obtain ⟨-, hread⟩ := decode_eq_ok_iff.1 h
  refine ⟨hcmd, ?_, ?_⟩
  · rintro m x y w h rfl
    obtain ⟨-, rfl, rfl, rfl, rfl⟩ := hread
    exact packBytes_extractLsb' c.arg0
  · rintro m x y w h rfl
    obtain ⟨-, rfl, rfl, rfl, rfl⟩ := hread
    obtain ⟨word, a0, a1, a2, a3⟩ := c
    exact congrArg (fun word' => Command.mk word' a0 a1 a2 a3) hcmd

/-- The decoder takes a word as a row's command exactly when the word lies in the row (R78). -/
theorem row_match_iff_decode {r : OpcodeRow} (hr : r ∈ opcodeTable) (c : Command) :
    c.cmd &&& r.mask = r.pattern ↔ ∃ i, decode c = .ok i ∧ i.mnemonic = r.mnemonic := by
  constructor
  · intro h
    obtain ⟨i, rfl, hread⟩ := exists_readFrom hr c
    exact ⟨i, decode_eq_ok_iff.2 ⟨h, hread⟩, i.row_mnemonic.symm⟩
  · rintro ⟨i, hi, hm⟩
    obtain ⟨hrow, -⟩ := decode_eq_ok_iff.1 hi
    rwa [← row_eq_of_mnemonic i.row_mem hr (i.row_mnemonic.trans hm)]

/-- No word lies in two rows: it would decode as two commands. -/
theorem rows_disjoint {w : Reg16} {r r' : OpcodeRow} (hr : r ∈ opcodeTable) (hr' : r' ∈ opcodeTable)
    (h : w &&& r.mask = r.pattern) (h' : w &&& r'.mask = r'.pattern) : r = r' := by
  obtain ⟨i, hi, hm⟩ := (row_match_iff_decode hr (.plain w)).1 h
  obtain ⟨i', hi', hm'⟩ := (row_match_iff_decode hr' (.plain w)).1 h'
  cases hi.symm.trans hi'
  exact row_eq_of_mnemonic hr hr' (hm.symm.trans hm')

/-- Settles O3: the rows against the decoder, and no word in two of them. -/
theorem decodeMatchesOpcodeMap : Obligations.DecodeMatchesOpcodeMap :=
  ⟨fun c _ hr => row_match_iff_decode hr c, fun _ _ _ hr hr' => rows_disjoint hr hr'⟩

/-- Settles O6: the decoder run on the nine words. -/
theorem decodeSampleWords : Obligations.DecodeSampleWords := ⟨rfl, rfl, rfl, rfl, rfl, rfl, rfl, rfl, rfl⟩

end Sys2Proof
end

section
/-! How many words are legal (R79): each legal word is the word of one command with zero arguments. -/

namespace Sys2Proof

/-- The flag commands on a slot. -/
def flagInstrs (t : Slot) : List Instr :=
  [.enable t, .disable t, .reset t, .setblend t false, .setblend t true, .setobj t false, .setobj t true,
   .setbg t 0 false, .setbg t 1 false, .setbg t 2 false, .setbg t 3 false,
   .setbg t 0 true, .setbg t 1 true, .setbg t 2 true, .setbg t 3 true]

/-- The commands that words stand for when the argument ports hold zero. -/
def plainInstrs : List Instr :=
  [.commit, .setposu8 .win0 0 0 0 0, .setposu8 .win1 0 0 0 0, .setpos .win0 0 0 0 0, .setpos .win1 0 0 0 0] ++
    [Slot.win0, .win1, .out, .obj].flatMap flagInstrs

theorem mem_plainInstrs_of_decode {w : Reg16} {i : Instr} (h : decode (.plain w) = .ok i) : i ∈ plainInstrs := by
  obtain ⟨-, hread⟩ := decode_eq_ok_iff.1 h
  clear h
  cases i with
  | enable t | disable t | reset t => clear hread; cases t <;> decide
  | setblend t v | setobj t v => clear hread; revert v; cases t <;> decide
  | setbg t bg v => clear hread; revert bg v; cases t <;> decide
  | setposu8 m x y w h | setpos m x y w h =>
    obtain ⟨-, rfl, rfl, rfl, rfl⟩ := hread
    cases m <;> simp [plainInstrs, Command.plain]
  | commit => decide

theorem encode_of_mem_plainInstrs {i : Instr} (h : i ∈ plainInstrs) : encode i = .plain (encode i).cmd := by
  have hall : ∀ i ∈ plainInstrs, encode i = .plain (encode i).cmd := by decide
  exact hall i h

theorem decode_plain_eq_ok_iff {w : Reg16} {i : Instr} :
    decode (.plain w) = .ok i ↔ i ∈ plainInstrs ∧ (encode i).cmd = w := by
  constructor
  · exact fun h => ⟨mem_plainInstrs_of_decode h, encode_cmd_of_decode h⟩
  · rintro ⟨hi, rfl⟩
    rw [← encode_of_mem_plainInstrs hi, decode_encode]

/-- The words that decode as commands of a kind are as many as the commands of that kind with zero arguments: different
commands have different words. -/
theorem card_words {P : Reg16 → Prop} [DecidablePred P] {q : Instr → Bool}
    (h : ∀ w, P w ↔ ∃ i, decode (.plain w) = .ok i ∧ q i = true) :
    (Finset.univ.filter P).card = (plainInstrs.filter q).length := by
  have hwords : Finset.univ.filter P = ((plainInstrs.filter q).map fun i => (encode i).cmd).toFinset := by
    ext w
    simp only [Finset.mem_filter_univ, h, decode_plain_eq_ok_iff, List.mem_toFinset, List.mem_map, List.mem_filter]
    exact exists_congr fun i => and_right_comm
  have hnodup : ((plainInstrs.filter q).map fun i => (encode i).cmd).Nodup := by
    have hinstrs : plainInstrs.Nodup := by decide
    refine (hinstrs.filter q).map_on fun i hi j hj hij => ?_
    have hdi := decode_plain_eq_ok_iff.2 ⟨List.mem_of_mem_filter hi, hij⟩
    have hdj := decode_plain_eq_ok_iff.2 ⟨List.mem_of_mem_filter hj, rfl⟩
    exact Except.ok.inj (hdi.symm.trans hdj)
  rw [hwords, List.toFinset_card_of_nodup hnodup, List.length_map]

theorem toOption_eq_some_iff {o : Except Illegal Instr} {i : Instr} : o.toOption = some i ↔ o = .ok i := by
  cases o <;> simp [Except.toOption]

/-- A word decodes and lies in exactly one row, or is illegal and lies in none. -/
theorem decode_row_dichotomy (c : Command) :
    ((∃ i, decode c = .ok i) ∧ ∃! r, r ∈ opcodeTable ∧ c.cmd &&& r.mask = r.pattern) ∨
    ((∃ e, decode c = .error e) ∧ ∀ r ∈ opcodeTable, c.cmd &&& r.mask ≠ r.pattern) := by
  cases hc : decode c with
  | ok i =>
    obtain ⟨hrow, -⟩ := decode_eq_ok_iff.1 hc
    exact .inl ⟨⟨i, rfl⟩, i.row, ⟨i.row_mem, hrow⟩, fun r ⟨hr, hmatch⟩ => rows_disjoint hr i.row_mem hmatch hrow⟩
  | error e =>
    refine .inr ⟨⟨e, rfl⟩, fun r hr hmatch => ?_⟩
    obtain ⟨i, hi, -⟩ := (row_match_iff_decode hr c).1 hmatch
    cases hi.symm.trans hc

/-- Settles O4: the commands with zero arguments counted, all of them and by mnemonic. -/
theorem legalWordCount : Obligations.LegalWordCount := by
  refine ⟨?_, fun p hp => ?_, decode_row_dichotomy⟩
  · refine (card_words (q := fun _ => true) fun w => ?_).trans rfl
    simp only [Option.isSome_iff_exists, toOption_eq_some_iff, and_true]
  · have hcount : ∀ p ∈ [("ENABLE", 4), ("DISABLE", 4), ("RESET", 4), ("SETBLEND", 8), ("SETOBJ", 8), ("SETBG", 32),
        ("SETPOSU8", 2), ("SETPOS", 2), ("COMMIT", 1)],
        (plainInstrs.filter fun i => i.mnemonic == p.1).length = p.2 := by decide
    rw [← hcount p hp]
    refine card_words fun w => ?_
    simp only [Option.map_eq_some_iff, toOption_eq_some_iff, beq_iff_eq]

end Sys2Proof
end

section
/-! Which words are illegal, by field (R71, R81). -/

namespace Sys2Proof

theorem decodeZeros_error_iff (w z : Reg16) (i : Instr) :
    (∃ e, decodeZeros w z i = .error e) ↔ ¬ w &&& z = 0 := by
  by_cases hz : w &&& z = 0
  · simp only [decodeZeros_of_zeros hz, reduceCtorEq, exists_false, hz, not_true]
  · exact iff_of_true ⟨.mustBeZero, if_neg hz⟩ hz

theorem decodePos_error_iff (w : Reg16) (i : Instr) : (∃ e, decodePos w i = .error e) ↔ ¬ w &&& 0x0EFF = 0 := by
  constructor
  · rintro ⟨e, he⟩ hz
    cases he.symm.trans (decodePos_of_zeros hz i)
  · intro hz
    cases hd : decodePos w i with
    | ok j => exact absurd (decodePos_ok hd).1 hz
    | error e => exact ⟨e, rfl⟩

/-! The "must be 0" masks as fields: three in every format, and in each format the fields it has no use for. -/

/-- Bits 11:10, 7:6 and 3:1 of the word, which no format uses, are 0. -/
def unusedZero (w : Reg16) : Prop := w.extractLsb' 10 2 = 0 ∧ w.extractLsb' 6 2 = 0 ∧ w.extractLsb' 1 3 = 0

theorem and_0CCE_iff (w : Reg16) : w &&& 0x0CCE = 0 ↔ unusedZero w := by
  have hmask : (0x0CCE : Reg16) = fieldMask 16 10 2 ||| (fieldMask 16 6 2 ||| fieldMask 16 1 3) := by decide
  rw [hmask, and_or_eq_zero, and_or_eq_zero, and_fieldMask_eq_zero w (by decide), and_fieldMask_eq_zero w (by decide),
    and_fieldMask_eq_zero w (by decide), unusedZero]

theorem and_0CFE_iff (w : Reg16) : w &&& 0x0CFE = 0 ↔ unusedZero w ∧ w.extractLsb' 4 2 = 0 := by
  have hmask : (0x0CFE : Reg16) = 0x0CCE ||| fieldMask 16 4 2 := by decide
  rw [hmask, and_or_eq_zero, and_0CCE_iff, and_fieldMask_eq_zero w (by decide)]

theorem and_0CFF_iff (w : Reg16) :
    w &&& 0x0CFF = 0 ↔ unusedZero w ∧ w.extractLsb' 4 2 = 0 ∧ w.extractLsb' 0 1 = 0 := by
  have hmask : (0x0CFF : Reg16) = 0x0CFE ||| fieldMask 16 0 1 := by decide
  rw [hmask, and_or_eq_zero, and_0CFE_iff, and_fieldMask_eq_zero w (by decide), and_assoc]

theorem and_0FFF_iff (w : Reg16) :
    w &&& 0x0FFF = 0 ↔ (unusedZero w ∧ w.extractLsb' 4 2 = 0 ∧ w.extractLsb' 0 1 = 0) ∧ w.extractLsb' 8 2 = 0 := by
  have hmask : (0x0FFF : Reg16) = 0x0CFF ||| fieldMask 16 8 2 := by decide
  rw [hmask, and_or_eq_zero, and_0CFF_iff, and_fieldMask_eq_zero w (by decide)]

theorem and_0EFF_iff (w : Reg16) :
    w &&& 0x0EFF = 0 ↔ (unusedZero w ∧ w.extractLsb' 4 2 = 0 ∧ w.extractLsb' 0 1 = 0) ∧
      ¬ (w.extractLsb' 8 2 = 2 ∨ w.extractLsb' 8 2 = 3) := by
  have hmask : (0x0EFF : Reg16) = 0x0CFF ||| fieldMask 16 9 1 := by decide
  have hhigh : ∀ t : BitVec 2, t.extractLsb' 1 1 = 0 ↔ ¬ (t = 2 ∨ t = 3) := by decide
  have hbit : w.extractLsb' 9 1 = (w.extractLsb' 8 2).extractLsb' 1 1 := by
    ext k hk
    obtain rfl : k = 0 := by omega
    simp
  rw [hmask, and_or_eq_zero, and_0CFF_iff, and_fieldMask_eq_zero w (by decide), hbit, hhigh]

/-- Settles O5: along the decoder's arms, each with its "must be 0" mask taken apart into fields. -/
theorem illegalWords : Obligations.IllegalWords := by
  intro c op t
  have hop : (opField c.cmd).toNat = op := rfl
  have ht : c.cmd.extractLsb' 8 2 = t := rfl
  have hlt : op < 16 := BitVec.isLt _
  clear_value op t
  simp only [decode, hop]
  split
  case h_10 =>
    have hreserved : op ∈ [0x0, 0x7, 0xA, 0xB, 0xD, 0xE, 0xF] := by
      simp only [imp_false] at *
      simp only [List.mem_cons, List.not_mem_nil, or_false]
      omega
    exact iff_of_true ⟨_, rfl⟩ (.inl hreserved)
  case' h_1 | h_2 | h_6 => rw [decodeZeros_error_iff, and_0CFF_iff]
  case' h_3 | h_4 => rw [decodeZeros_error_iff, and_0CFE_iff]
  case' h_5 => rw [decodeZeros_error_iff, and_0CCE_iff]
  case' h_7 | h_8 => rw [decodePos_error_iff, and_0EFF_iff]
  case' h_9 => rw [decodeZeros_error_iff, and_0FFF_iff]
  all_goals simp [unusedZero, not_and_or, -not_and, or_assoc, ht]

end Sys2Proof
end

section
/-! The assembler's table (R83). -/

namespace Sys2Proof

theorem inRange_iff {lo hi v : Int} : inRange lo hi v = true ↔ lo ≤ v ∧ v ≤ hi := by
  simp only [inRange, Bool.and_eq_true, decide_eq_true_eq]

theorem Slot.movable_iff (t : Slot) : t.movable = true ↔ t.id ≤ 1 := by cases t <;> decide

theorem AsmLine.setbg_wellFormed_iff (t : Slot) (bg v : Int) :
    (AsmLine.setbg t bg v).wellFormed = true ↔ (0 ≤ bg ∧ bg ≤ 3) ∧ 0 ≤ v ∧ v ≤ 1 := by
  simp only [AsmLine.wellFormed, Bool.and_eq_true, inRange_iff]

theorem AsmLine.setposu8_wellFormed_iff (t : Slot) (x y w h : Int) :
    (AsmLine.setposu8 t x y w h).wellFormed = true ↔
      t.id ≤ 1 ∧ (0 ≤ x ∧ x ≤ 255) ∧ (0 ≤ y ∧ y ≤ 255) ∧ (0 ≤ w ∧ w ≤ 255) ∧ (0 ≤ h ∧ h ≤ 255) := by
  simp only [AsmLine.wellFormed, Bool.and_eq_true, inRange_iff, Slot.movable_iff, and_assoc]

theorem AsmLine.setpos_wellFormed_iff (t : Slot) (x y w h : Int) :
    (AsmLine.setpos t x y w h).wellFormed = true ↔
      t.id ≤ 1 ∧ (-2147483648 ≤ x ∧ x ≤ 2147483647) ∧ (-2147483648 ≤ y ∧ y ≤ 2147483647) ∧
        (-2147483648 ≤ w ∧ w ≤ 2147483647) ∧ (-2147483648 ≤ h ∧ h ≤ 2147483647) := by
  simp only [AsmLine.wellFormed, Bool.and_eq_true, inRange_iff, Slot.movable_iff, and_assoc]

/-! An operand within its range is the number written, in whatever word it is placed. -/

theorem setWidth_ofInt {n k : Nat} {v : Int} (h0 : 0 ≤ v) (hn : v < 2 ^ n) :
    (BitVec.ofInt n v).setWidth k = BitVec.ofInt k v := by
  obtain ⟨m, rfl⟩ := Int.eq_ofNat_of_zero_le h0
  have hm : m < 2 ^ n := by exact_mod_cast hn
  apply BitVec.eq_of_toNat_eq
  simp [Nat.mod_eq_of_lt hm]

theorem setWidth_ofInt_byte {v : Int} (h : 0 ≤ v ∧ v ≤ 255) : (BitVec.ofInt 8 v).setWidth 32 = BitVec.ofInt 32 v :=
  setWidth_ofInt h.1 (Int.lt_of_le_of_lt h.2 (by decide))

theorem boolField_beq_one {v : Int} (h : 0 ≤ v ∧ v ≤ 1) : boolField (v == 1) = BitVec.ofInt 16 v := by
  obtain rfl | rfl : v = 0 ∨ v = 1 := by omega
  · rfl
  · rfl

theorem Mov.field_of_movable {t : Slot} (h : t.id ≤ 1) : (Mov.ofBit (t == .win1)).field = t.field := by
  cases t with
  | win0 | win1 => rfl
  | out | obj => exact absurd h (by decide)

/-- The command a line stands for within its ranges. -/
def AsmLine.instr : AsmLine → Instr
  | .enable t => .enable t
  | .disable t => .disable t
  | .setblend t v => .setblend t (v == 1)
  | .setobj t v => .setobj t (v == 1)
  | .setbg t bg v => .setbg t (BitVec.ofInt 2 bg) (v == 1)
  | .reset t => .reset t
  | .setposu8 t x y w h =>
    .setposu8 (Mov.ofBit (t == .win1)) (BitVec.ofInt 8 x) (BitVec.ofInt 8 y) (BitVec.ofInt 8 w) (BitVec.ofInt 8 h)
  | .setpos t x y w h =>
    .setpos (Mov.ofBit (t == .win1)) (BitVec.ofInt 32 x) (BitVec.ofInt 32 y) (BitVec.ofInt 32 w) (BitVec.ofInt 32 h)
  | .commit => .commit

end Sys2Proof

namespace Sys2Proof.Machine

theorem assemble_eq (l : AsmLine) : assemble l = if l.wellFormed then some (encode l.instr) else none := by
  cases l <;> rfl

/-- A line's entry in the table: its ranges, and its command within them. -/
theorem assemble_of_iff {l : AsmLine} {p : Prop} [Decidable p] {c : Command} (hp : l.wellFormed = true ↔ p)
    (hc : p → encode l.instr = c) : assemble l = if p then some c else none := by
  rw [assemble_eq]
  by_cases h : p
  · rw [if_pos h, if_pos (hp.2 h), hc h]
  · rw [if_neg h, if_neg (mt hp.1 h)]

/-- Settles O7: the table line by line. -/
theorem assemblerTable : Obligations.AssemblerTable := by
  intro t v bg x y w h byte i32 at8
  refine ⟨rfl, rfl, rfl, rfl, ?setblend, ?setobj, ?setbg, ?setposu8, ?setpos⟩
  case setblend | setobj =>
    refine assemble_of_iff inRange_iff fun hv => ?_
    rw [AsmLine.instr, encode, boolField_beq_one hv]
    rfl
  case setbg =>
    refine assemble_of_iff (AsmLine.setbg_wellFormed_iff t bg v) fun ⟨⟨hlo, hhi⟩, hv⟩ => ?_
    rw [AsmLine.instr, encode, boolField_beq_one hv, setWidth_ofInt hlo (by omega)]
    rfl
  case setposu8 =>
    refine assemble_of_iff (AsmLine.setposu8_wellFormed_iff t x y w h) fun ⟨ht, hx, hy, hw, hh⟩ => ?_
    rw [AsmLine.instr, encode, Mov.field_of_movable ht, setWidth_ofInt_byte hx, setWidth_ofInt_byte hy,
      setWidth_ofInt_byte hw, setWidth_ofInt_byte hh]
    rfl
  case setpos =>
    refine assemble_of_iff (AsmLine.setpos_wellFormed_iff t x y w h) fun ⟨ht, _⟩ => ?_
    rw [AsmLine.instr, encode, Mov.field_of_movable ht]
    rfl

end Sys2Proof.Machine
end

section
/-! A whole commit: the taking of the command, the nine write steps, and the control registers after them (R80, R143,
R147). -/

namespace Sys2Proof.Machine

/-- `SEQ` after write step `n` (R147). -/
def nextSeq (n : BitVec 4) : BitVec 4 := if n = 9 then 0 else n + 1

/-- The write steps from `SEQ = n` on perform these transactions, one after another. -/
def WritesFrom (s : State) : BitVec 4 → List WriteEvent → Prop
  | _, [] => True
  | n, e :: es => n ≠ 0 ∧ (∃ op, seqOp n = some op ∧ stepEvent s op = .ok e) ∧ WritesFrom s (nextSeq n) es

/-- Steps of the machine inside a commit, as many as there are transactions. -/
theorem InCommit.run {s : State} (hw : s.cfg.wellFormed = true) {es : List WriteEvent} :
    ∀ {t : State} {n : BitVec 4} {written : List WriteEvent}, InCommit s t n written → WritesFrom s n es →
      ∃ u, stepN es.length t = .next u ∧ InCommit s u (nextSeq^[es.length] n) (written ++ es) := by
  induction es with
  | nil => exact fun {t} _ _ h _ => ⟨t, rfl, by simpa using h⟩
  | cons e es ih =>
    rintro t n written h ⟨hn, ⟨op, hop, he⟩, hes⟩
    obtain ⟨v, hv, hnext, -⟩ := h.next hw hn hop he
    obtain ⟨u, hu, hlast⟩ := ih hnext hes
    rw [List.append_assoc, List.singleton_append] at hlast
    exact ⟨u, (stepN_of_next hv).trans hu, hlast⟩

theorem horizontalEvent_eq {s : State} (h : s.edgesOk) (m : Mov) :
    stepEvent s (.horizontal m) =
      .ok ⟨s.cfg.winhBase + m.id, 0xFFFF, (s.rect m).x ++ edgeByte (s.rect m).x (s.rect m).w⟩ := by
  rw [stepEvent, extentEvent_eq, if_pos (h.imp_right fun hfits => (hfits m).1), winhIndex]

theorem verticalEvent_eq {s : State} (h : s.edgesOk) (m : Mov) :
    stepEvent s (.vertical m) =
      .ok ⟨s.cfg.winvBase + m.id, 0xFFFF, (s.rect m).y ++ edgeByte (s.rect m).y (s.rect m).h⟩ := by
  rw [stepEvent, extentEvent_eq, if_pos (h.imp_right fun hfits => (hfits m).2), winvIndex]

/-- The nine write steps of a commit that cannot fault perform the nine transactions of R143. -/
theorem writesFrom_commitTrace {s : State} (h : s.edgesOk) : WritesFrom s 1 (commitTrace s) := by
  refine ⟨by decide, ⟨_, rfl, ?_⟩, by decide, ⟨_, rfl, horizontalEvent_eq h _⟩,
    by decide, ⟨_, rfl, verticalEvent_eq h _⟩, by decide, ⟨_, rfl, ?_⟩,
    by decide, ⟨_, rfl, horizontalEvent_eq h _⟩, by decide, ⟨_, rfl, verticalEvent_eq h _⟩,
    by decide, ⟨_, rfl, ?_⟩, by decide, ⟨_, rfl, ?_⟩, by decide, ⟨_, rfl, summaryEvent_eq s⟩, trivial⟩
  all_goals simp [controlEvent_eq, Slot.id, setWidth_shiftLeft_eight]

/-- The nine write steps that follow the taking of a COMMIT. -/
theorem InCommit.run_all {s t : State} (h : InCommit s t 1 []) (hw : s.cfg.wellFormed = true) (hedges : s.edgesOk) :
    ∃ u, stepN 9 t = .next u ∧ InCommit s u 0 (commitTrace s) :=
  h.run hw (writesFrom_commitTrace hedges)

theorem InCommit.start {s : State} (hwf : s.mem.wf = true) (hseq : s.seq = 1) : InCommit s s 1 [] where
  cfg := rfl
  wasReset := rfl
  wb _ := rfl
  rect _ := rfl
  seq := hseq
  trace := (List.append_nil _).symm
  host := rfl
  regs := ⟨hwf, fun _ _ _ _ => rfl⟩

/-- The step that takes a COMMIT from the port. -/
theorem step_commit {s : State} {rest : List HostMove} (hw : s.cfg.wellFormed = true) (hidle : s.seq = 0)
    (hreset : s.wasReset = true) (hhost : s.host = .command (encode .commit) :: rest) :
    step s = .next (s.envMove.takeHost.setSeq 1) := by
  rw [step_idle hw hidle, takeMove_of_decode (s := s.envMove) hreset hhost (decode_encode .commit)]
  simp only [exec, execCommit, State.takeHost, State.envMove_host, hhost, List.tail_cons]

/-! The control registers at the end of a commit. -/

theorem foldl_onRegs_apply (es : List WriteEvent) (regs : Nat → Reg16) (a : Nat) :
    es.foldl WriteEvent.onRegs regs a = es.foldl (fun old e => if a = e.addr then e.merge old else old) (regs a) := by
  induction es generalizing regs with
  | nil => rfl
  | cons e es ih => exact ih _

theorem RegsAre.reg_eq {t : State} {regs : Nat → Reg16} (h : RegsAre t regs) {a : Nat} (ha : a ≠ t.cfg.dispcntAddr) :
    t.reg a = regs a :=
  BitVec.eq_of_getLsbD_eq fun k hk => h.bits a k hk (.inl ha)

/-- A window register at the end of a commit is what the commit's transactions to it made of its old value. -/
theorem InCommit.window_reg {s u : State} {n : BitVec 4} {es : List WriteEvent} (h : InCommit s u n es)
    (hw : s.cfg.wellFormed = true) {a : Nat} (ha : a ∈ s.cfg.indices.dropLast) :
    u.reg a = es.foldl (fun old e => if a = e.addr then e.merge old else old) (s.reg a) := by
  rw [h.regs.reg_eq (h.cfg.symm ▸ ne_dispcntAddr_of_window hw ha), foldl_onRegs_apply]

theorem InCommit.winctlA {s u : State} (h : InCommit s u 0 (commitTrace s)) (hw : s.cfg.wellFormed = true) :
    u.winctlA = s.wb .win1 ++ s.wb .win0 := by
  obtain ⟨-, -, hnodup⟩ := s.cfg.wellFormed_iff.1 hw
  simp only [Config.indices, List.nodup_cons, List.mem_cons, not_or] at hnodup
  rw [State.winctlA, h.cfg, h.window_reg hw (by simp [Config.indices])]
  simp only [commitTrace, List.foldl_cons, List.foldl_nil, hnodup, if_true, if_false]
  exact WriteEvent.merge_halves ..

theorem InCommit.winctlB {s u : State} (h : InCommit s u 0 (commitTrace s)) (hw : s.cfg.wellFormed = true) :
    u.winctlB = s.wb .obj ++ s.wb .out := by
  obtain ⟨-, -, hnodup⟩ := s.cfg.wellFormed_iff.1 hw
  simp only [Config.indices, List.nodup_cons, List.mem_cons, not_or] at hnodup
  rw [State.winctlB, h.cfg, h.window_reg hw (by simp [Config.indices])]
  simp only [commitTrace, List.foldl_cons, List.foldl_nil, hnodup, Nat.add_eq_left, one_ne_zero, if_true, if_false]
  exact WriteEvent.merge_halves ..

/-- The reserved bits of the two flag bytes in a control register. -/
theorem append_reserved_bits {hi lo : Byte} (hhi : hi.getLsbD 6 = false) (hlo : lo.getLsbD 6 = false) :
    (hi ++ lo).getLsbD 6 = false ∧ (hi ++ lo).getLsbD 14 = false := by
  simp only [BitVec.getLsbD_append]
  exact ⟨hlo, hhi⟩

/-- Settles O39: the state that has taken the COMMIT is in the invariant, and the run writes its flag bytes out. -/
theorem reservedBitPublishedZero : Obligations.ReservedBitPublishedZero := by
  intro s rest hw hinv hidle hreset hedges hhost
  have htaken := step_commit hw hidle hreset hhost
  have hinv' := stepKeepsInvariant s _ hinv htaken
  have hedges' : (s.envMove.takeHost.setSeq 1).edgesOk := by simpa [State.edgesOk] using hedges
  obtain ⟨u, hu, hend⟩ := (InCommit.start hinv'.mem rfl).run_all hw hedges'
  refine ⟨u, (stepN_of_next htaken).trans hu, ?_⟩
  rw [hend.winctlA hw, hend.winctlB hw]
  obtain ⟨ha6, ha14⟩ := append_reserved_bits (hinv'.bit6 .win1) (hinv'.bit6 .win0)
  obtain ⟨hb6, hb14⟩ := append_reserved_bits (hinv'.bit6 .obj) (hinv'.bit6 .out)
  exact ⟨ha6, ha14, hb6, hb14⟩

end Sys2Proof.Machine
end

section
/-! The flag commands (R100 to R106): each is a function of one flag byte and keeps the rest of the state. -/

namespace Sys2Proof.Machine

/-! `SetBit` against another `SetBit` (R9). -/

theorem setBit_eq_self {b : Byte} {i : Nat} {v : Bool} (hi : i < 8) (h : b.getLsbD i = v) : setBit b i v = b := by
  apply BitVec.eq_of_getLsbD_eq
  intro k _
  rw [setBit_bit b v hi]
  split
  · next hki => rw [hki, h]
  · rfl

theorem setBit_comm (b : Byte) {i j : Nat} (v w : Bool) (hi : i < 8) (hj : j < 8) (hne : i ≠ j) :
    setBit (setBit b i v) j w = setBit (setBit b j w) i v := by
  apply BitVec.eq_of_getLsbD_eq
  intro k _
  simp only [setBit_bit _ _ hi, setBit_bit _ _ hj]
  by_cases hki : k = i
  · simp [hki, hne]
  · simp [hki]

theorem setBit_setBit (b : Byte) {i : Nat} (v w : Bool) (hi : i < 8) : setBit (setBit b i v) i w = setBit b i w := by
  apply BitVec.eq_of_getLsbD_eq
  intro k _
  simp only [setBit_bit _ _ hi]
  split <;> rfl

end Sys2Proof.Machine

namespace Sys2Proof

/-! A flag command as a function of a flag byte. -/

/-- What a flag command makes of the flag byte of its slot (R100 to R105); the other commands leave flag bytes alone. -/
def Instr.flagByte (i : Instr) (b : Byte) : Byte :=
  match i with
  | .enable _ => Machine.setBit b 7 true
  | .disable _ => Machine.setBit b 7 false
  | .setblend _ v => Machine.setBit b 5 v
  | .setobj _ v => Machine.setBit b 4 v
  | .setbg _ bg v => Machine.setBit b bg.toNat v
  | .reset _ => 0
  | .setposu8 _ _ _ _ _ | .setpos _ _ _ _ _ | .commit => b

/-- A flag command other than RESET sets its bit to a fixed value. -/
theorem Instr.flagByte_of_flagBit {i : Instr} {bit : Nat} (h : i.flagBit = some bit) :
    bit < 8 ∧ ∃ v, ∀ b, i.flagByte b = Machine.setBit b bit v := by
  cases i with
  | enable t | disable t | setblend t v | setobj t v => cases h; exact ⟨by decide, _, fun _ => rfl⟩
  | setbg t bg v => cases h; exact ⟨by omega, v, fun _ => rfl⟩
  | reset t | setposu8 m x y w h' | setpos m x y w h' | commit => cases h

/-- The flag command without a bit of its own is RESET, which zeroes the byte (R105). -/
theorem Instr.flagByte_of_no_flagBit {i : Instr} {t : Slot} (ht : i.flagTarget = some t) (h : i.flagBit = none) :
    i = .reset t ∧ ∀ b, i.flagByte b = 0 := by
  cases i with
  | reset t' => cases ht; exact ⟨rfl, fun _ => rfl⟩
  | enable t' | disable t' | setblend t' v | setobj t' v | setbg t' bg v => cases h
  | setposu8 m x y w h' | setpos m x y w h' | commit => cases ht

theorem Instr.flagByte_bit_of_ne {i : Instr} {bit k : Nat} (h : i.flagBit = some bit) (hk : k ≠ bit) (b : Byte) :
    (i.flagByte b).getLsbD k = b.getLsbD k := by
  obtain ⟨hlt, v, hset⟩ := i.flagByte_of_flagBit h
  rw [hset, Machine.setBit_bit _ _ hlt, if_neg hk]

/-- Flag commands on different bits of a byte commute (R106). -/
theorem Instr.flagByte_comm {i j : Instr} {bi bj : Nat} (hi : i.flagBit = some bi) (hj : j.flagBit = some bj)
    (hne : bi ≠ bj) (b : Byte) : j.flagByte (i.flagByte b) = i.flagByte (j.flagByte b) := by
  obtain ⟨hilt, v, hiset⟩ := i.flagByte_of_flagBit hi
  obtain ⟨hjlt, w, hjset⟩ := j.flagByte_of_flagBit hj
  rw [hiset, hjset, hjset, hiset]
  exact Machine.setBit_comm b v w hilt hjlt hne

/-- Of two flag commands on one bit, or two RESETs, the later wins (R106). -/
theorem Instr.flagByte_overwrites {i j : Instr} {t : Slot} (ht : j.flagTarget = some t)
    (h : i.flagBit = j.flagBit) (b : Byte) : j.flagByte (i.flagByte b) = j.flagByte b := by
  cases hj : j.flagBit with
  | none =>
    obtain ⟨-, hzero⟩ := j.flagByte_of_no_flagBit ht hj
    rw [hzero, hzero]
  | some bit =>
    obtain ⟨hlt, w, hjset⟩ := j.flagByte_of_flagBit hj
    obtain ⟨-, v, hiset⟩ := i.flagByte_of_flagBit (h.trans hj)
    rw [hiset, hjset, hjset]
    exact Machine.setBit_setBit b v w hlt

/-- A flag command's word decodes to it whatever stands on the argument ports, which it does not read (R70). -/
theorem decode_of_flag_word {i : Instr} {t : Slot} (ht : i.flagTarget = some t) {c : Command}
    (h : c.cmd = (encode i).cmd) : decode c = .ok i :=
  decodeOfEncode i c h (fun _ _ _ _ _ hi => by subst hi; cases ht) (fun _ _ _ _ _ hi => by subst hi; cases ht)

theorem boolField_eq_ofNat (v : Bool) : boolField v = BitVec.ofNat 16 v.toNat := by cases v <;> rfl

end Sys2Proof

namespace Sys2Proof.Machine

/-- The state with the flag byte of a slot changed by `f`, and the response OK (R106). -/
def State.onFlagByte (s : State) (t : Slot) (f : Byte → Byte) : State := (s.setWb t (f (s.wb t))).respond .ok

@[simp] theorem State.onFlagByte_wb (s : State) (t : Slot) (f : Byte → Byte) (t' : Slot) :
    (s.onFlagByte t f).wb t' = if t' = t then f (s.wb t) else s.wb t' := by simp [State.onFlagByte]

@[simp] theorem State.onFlagByte_rect (s : State) (t : Slot) (f : Byte → Byte) (m : Mov) :
    (s.onFlagByte t f).rect m = s.rect m := by simp [State.onFlagByte]

/-- The frame of a change to one flag byte: the other flag bytes, the rectangles, and all outside the cache (R106). -/
theorem State.onFlagByte_frame (s : State) (t : Slot) (f : Byte → Byte) :
    (∀ t', t' ≠ t → (s.onFlagByte t f).wb t' = s.wb t') ∧ (∀ m, (s.onFlagByte t f).rect m = s.rect m) ∧
      (s.onFlagByte t f).resp = .ok ∧ KeepsOutside s (s.onFlagByte t f) :=
  ⟨fun t' ht => by rw [State.onFlagByte_wb, if_neg ht], s.onFlagByte_rect t f, rfl, by
    constructor <;> simp [State.onFlagByte]⟩

/-- A flag command's whole effect (R106). -/
theorem exec_of_flagTarget {i : Instr} {t : Slot} (h : i.flagTarget = some t) (s : State) :
    exec i s = .next (s.onFlagByte t i.flagByte) := by
  cases i with
  | enable t' | disable t' | setblend t' v | setobj t' v | setbg t' bg v | reset t' => cases h; rfl
  | setposu8 m x y w h' | setpos m x y w h' | commit => cases h

theorem execAll_flag_pair {i j : Instr} {t t' : Slot} (hi : i.flagTarget = some t) (hj : j.flagTarget = some t')
    (s : State) : execAll [i, j] s = .next ((s.onFlagByte t i.flagByte).onFlagByte t' j.flagByte) := by
  simp only [execAll, exec_of_flagTarget hi, exec_of_flagTarget hj]

/-- Two changes of flag bytes leave the same cache in either order where they are of different bytes or commute. -/
theorem State.onFlagByte_comm (s : State) {t t' : Slot} {f g : Byte → Byte}
    (h : t = t' → ∀ b, g (f b) = f (g b)) :
    KeepsCache ((s.onFlagByte t f).onFlagByte t' g) ((s.onFlagByte t' g).onFlagByte t f) := by
  refine ⟨fun x => ?_, fun m => by simp⟩
  simp only [State.onFlagByte_wb]
  by_cases ht : t = t'
  · subst ht
    simp only [if_true, h rfl]
    split <;> rfl
  · by_cases hx : x = t
    · simp [hx, ht]
    · simp [hx, Ne.symm ht]

/-- A change of a flag byte that the second overwrites leaves no trace in the cache. -/
theorem State.onFlagByte_overwrites (s : State) (t : Slot) {f g : Byte → Byte} (h : ∀ b, g (f b) = g b) :
    KeepsCache (s.onFlagByte t g) ((s.onFlagByte t f).onFlagByte t g) := by
  refine ⟨fun x => ?_, fun m => by simp⟩
  by_cases hx : x = t
  · simp [hx, h]
  · simp [hx]

/-- Settles O15: a flag command is a function of one flag byte; on one byte two of them commute where their bits
differ, and the later overwrites the earlier where they have the same bit. -/
theorem flagCommandsCommute : Obligations.FlagCommandsCommute := by
  intro i j t t' s hi hj
  refine ⟨_, _, execAll_flag_pair hi hj s, execAll_flag_pair hj hi s, fun ht => ?_, fun b b' hb hb' hne => ?_, ?_⟩
  · exact s.onFlagByte_comm fun ht' => absurd ht' ht
  · exact s.onFlagByte_comm fun _ => Instr.flagByte_comm hb hb' hne
  · rintro rfl hbit
    exact ⟨_, exec_of_flagTarget hj s, s.onFlagByte_overwrites t (Instr.flagByte_overwrites hj hbit)⟩

/-- Settles O14: the frame of a change to one flag byte, and the bits of that byte a command other than RESET keeps. -/
theorem flagCommandFrame : Obligations.FlagCommandFrame := by
  intro i t s ht
  obtain ⟨hslots, hrects, hresp, houtside⟩ := s.onFlagByte_frame t i.flagByte
  refine ⟨_, exec_of_flagTarget ht s, houtside, hresp, hslots, hrects, fun hi => ?_⟩
  cases hb : i.flagBit with
  | none => exact absurd (i.flagByte_of_no_flagBit ht hb).1 hi
  | some bit =>
    refine ⟨bit, rfl, fun k hk => ?_⟩
    rw [State.onFlagByte_wb, if_pos rfl, Instr.flagByte_bit_of_ne hb hk]

/-! One command at a time. -/

/-- `setFlag` against R106: the bit it sets, the bits it keeps, and its frame. -/
theorem State.setFlag_spec (s : State) (t : Slot) {bit : Nat} (v : Bool) (hbit : bit < 8) :
    ((s.setFlag t bit v).wb t).getLsbD bit = v ∧
      (∀ k, k ≠ bit → ((s.setFlag t bit v).wb t).getLsbD k = (s.wb t).getLsbD k) ∧
      (∀ t', t' ≠ t → (s.setFlag t bit v).wb t' = s.wb t') ∧ (∀ m, (s.setFlag t bit v).rect m = s.rect m) ∧
      (s.setFlag t bit v).resp = .ok ∧ KeepsOutside s (s.setFlag t bit v) := by
  have hbyte : (s.setFlag t bit v).wb t = setBit (s.wb t) bit v := by simp
  rw [hbyte]
  refine ⟨?_, fun k hk => ?_, s.onFlagByte_frame t fun b => setBit b bit v⟩
  · rw [setBit_bit _ _ hbit, if_pos rfl]
  · rw [setBit_bit _ _ hbit, if_neg hk]

/-- Writing the value a bit already has changes nothing (R100 to R102). -/
theorem State.setFlag_wb_eq_self {s : State} {t : Slot} {bit : Nat} {v : Bool} (hbit : bit < 8)
    (h : (s.wb t).getLsbD bit = v) : (s.setFlag t bit v).wb t = s.wb t := by
  rw [State.setFlag_wb, if_pos rfl, setBit_eq_self hbit h]

/-- A flag other than bit 7 does not reach `en_status` (R27). -/
theorem State.setFlag_enStatus (s : State) (t : Slot) {bit : Nat} (v : Bool) (hbit : bit < 8) (hne : bit ≠ 7) :
    (s.setFlag t bit v).enStatus = s.enStatus := by
  simp only [State.enStatus, State.en_setFlag s hbit, hne, and_false, if_false]

/-- The enabled state of the outside Window feeds no bit of the enable summary (R144). -/
theorem State.setFlag_out_summary (s : State) {bit : Nat} (v : Bool) (hbit : bit < 8) :
    (s.setFlag .out bit v).summary = s.summary := by
  simp [State.summary, State.en_setFlag s hbit]

/-- Settles O8: `setFlag` of bit 7 with 1. -/
theorem enableResult : Obligations.EnableResult := by
  intro t s
  obtain ⟨hbit, hkept, hslots, hrects, hresp, houtside⟩ := s.setFlag_spec t true (bit := 7) (by decide)
  refine ⟨fun _ _ _ _ => decode_of_flag_word rfl rfl, s.setFlag t 7 true, rfl, hbit, hkept, hslots, hrects, hresp,
    houtside, (State.enStatus_bit _ t).trans hbit, State.setFlag_wb_eq_self (by decide), ?_⟩
  rintro rfl
  exact s.setFlag_out_summary true (by decide)

/-- Settles O9: `setFlag` of bit 7 with 0; the control-byte step takes the whole byte (`controlEvent_eq`). -/
theorem disableResult : Obligations.DisableResult := by
  intro t s
  obtain ⟨hbit, hkept, hslots, hrects, hresp, houtside⟩ := s.setFlag_spec t false (bit := 7) (by decide)
  refine ⟨fun _ _ _ _ => decode_of_flag_word rfl rfl, s.setFlag t 7 false, rfl, hbit, hkept, hslots, hrects, hresp,
    houtside, (State.enStatus_bit _ t).trans hbit, State.setFlag_wb_eq_self (by decide), _, controlEvent_eq _ t, rfl⟩

/-- Settles O10: `setFlag` of bit 5. -/
theorem setblendResult : Obligations.SetblendResult := by
  intro t v s
  obtain ⟨hbit, hkept, hslots, hrects, hresp, houtside⟩ := s.setFlag_spec t v (bit := 5) (by decide)
  refine ⟨fun _ _ _ _ => decode_of_flag_word rfl ?_, s.setFlag t 5 v, rfl, hbit, hkept, hslots, hrects, hresp,
    houtside, s.setFlag_enStatus t v (by decide) (by decide), State.setFlag_wb_eq_self (by decide)⟩
  rw [← boolField_eq_ofNat]; rfl

/-- Settles O11: `setFlag` of bit 4. -/
theorem setobjResult : Obligations.SetobjResult := by
  intro t v s
  obtain ⟨hbit, hkept, hslots, hrects, hresp, houtside⟩ := s.setFlag_spec t v (bit := 4) (by decide)
  refine ⟨fun _ _ _ _ => decode_of_flag_word rfl ?_, s.setFlag t 4 v, rfl, hbit, hkept, hslots, hrects, hresp,
    houtside, s.setFlag_enStatus t v (by decide) (by decide), State.setFlag_wb_eq_self (by decide)⟩
  rw [← boolField_eq_ofNat]; rfl

/-- Settles O12: `setFlag` of bit `bg`, which is below 4. -/
theorem setbgResult : Obligations.SetbgResult := by
  intro t bg v s
  have hbg : bg.toNat < 4 := bg.isLt
  obtain ⟨hbit, hkept, hslots, hrects, hresp, houtside⟩ := s.setFlag_spec t v (bit := bg.toNat) (by omega)
  refine ⟨fun _ _ _ _ => decode_of_flag_word rfl ?_, s.setFlag t bg.toNat v, rfl, hbit, hkept, ?_, hslots, hrects,
    hresp, houtside, s.setFlag_enStatus t v (by omega) (by omega)⟩
  · rw [← boolField_eq_ofNat, BitVec.ofNat_toNat]; rfl
  · apply BitVec.eq_of_getLsbD_eq
    intro k _
    simp only [BitVec.getLsbD_extractLsb', hkept (4 + k) (by omega)]

/-- Settles O13: the frame of a change to one flag byte, here to zero. -/
theorem resetCommandResult : Obligations.ResetCommandResult := by
  intro t s
  have hzero : (s.onFlagByte t fun _ => 0).wb t = 0 := by simp
  obtain ⟨hslots, hrects, hresp, houtside⟩ := s.onFlagByte_frame t fun _ => 0
  refine ⟨fun _ _ _ _ => decode_of_flag_word rfl rfl, _, exec_of_flagTarget rfl s, hzero, hslots, hrects, hresp,
    houtside, ?_⟩
  rw [State.enStatus_bit, State.en]
  exact congrArg (BitVec.getLsbD · 7) hzero

end Sys2Proof.Machine
end

section
/-! The control-byte step of a slot (R54, R107). -/

namespace Sys2Proof.Machine

/-- The control bytes are written at `SEQ` 1, 4, 7 and 8 and at no other time (R85). -/
theorem seqOp_eq_control_iff (n : BitVec 4) (t : Slot) :
    seqOp n = some (.control t) ↔ (n, t) ∈ [((1 : BitVec 4), Slot.win0), (4, .win1), (7, .out), (8, .obj)] := by
  cases t <;> revert n <;> decide

/-- Settles O25: the packer's field write of eight bits (O22) at either half of a control register, and the advance of
`SEQ`. -/
theorem controlByteStep : Obligations.ControlByteStep := by
  refine ⟨seqOp_eq_control_iff, fun s t hwf hop => ?_⟩
  have hnine : s.seq ≠ 9 := fun h => by rw [h] at hop; cases hop
  have hoff : t.id % 2 * 8 = 0 ∨ t.id % 2 * 8 = 8 := by omega
  obtain ⟨hpacker, -⟩ := fieldWriteMerges
  obtain ⟨-, -, -, hfield, hkept, hother⟩ :=
    hpacker s (s.cfg.winctlBase + t.id / 2) (t.id % 2 * 8) 8 (s.wb t) hwf (by decide) (by omega)
  refine ⟨_, commitStep_of_event (e := fieldWrite (s.cfg.winctlBase + t.id / 2) (t.id % 2 * 8) 8 (s.wb t)) hop rfl,
    (State.advance_seq _).trans (if_neg hnine), ⟨by simp, by simp⟩, ?_, ?_, by simpa using hother,
    State.advance_trace _⟩
  · apply BitVec.eq_of_getLsbD_eq
    intro k hk
    simpa [hk] using hfield k hk
  · apply BitVec.eq_of_getLsbD_eq
    intro k hk
    simpa [hk] using hkept (8 - t.id % 2 * 8 + k) (by omega)

end Sys2Proof.Machine
end

section
/-! The position commands (R120 to R123): each replaces one rectangle and keeps the rest of the state. -/

namespace Sys2Proof.Machine

/-! `clamp` and the narrowing of SETPOS (R9, R122). -/

theorem clamp_eq_max_min (v : Int) {lo hi : Int} (h : lo ≤ hi) : clamp v lo hi = max lo (min v hi) := by
  unfold clamp
  split_ifs <;> omega

theorem clamp_eq_self {v lo hi : Int} (hlo : lo ≤ v) (hhi : v ≤ hi) : clamp v lo hi = v := by
  rw [clamp, if_neg (Int.not_lt.2 hlo), if_neg (Int.not_lt.2 hhi)]

/-- A clamped value lies within its bounds, where clamping changes nothing (R123). -/
theorem clamp_clamp (v : Int) {lo hi : Int} (h : lo ≤ hi) : clamp (clamp v lo hi) lo hi = clamp v lo hi := by
  have hv := clamp_eq_max_min v h
  exact clamp_eq_self (by omega) (by omega)

/-- A position clamped to a bound that fits a byte loses nothing when it is cut to a byte (R122). -/
theorem clampPos_toNat (v : Arg32) {bound : Nat} (h : bound ≤ 255) :
    ((clampPos v bound).toNat : Int) = max 0 (min v.toInt bound) := by
  rw [clampPos, clamp_eq_max_min _ (Int.natCast_nonneg bound), trunc8, BitVec.toNat_setWidth, BitVec.toNat_ofInt]
  omega

theorem clampPos_le (v : Arg32) {bound : Nat} (h : bound ≤ 255) : (clampPos v bound).toNat ≤ bound := by
  have hv := clampPos_toNat v h
  omega

@[simp] theorem trunc8_setWidth (b : Byte) : trunc8 (b.setWidth 32) = b := by simp [trunc8]

/-- A byte within the bound is a position that the clamp keeps (R122 (f)). -/
theorem clampPos_setWidth {b : Byte} {bound : Nat} (h : b.toNat ≤ bound) : clampPos (b.setWidth 32) bound = b := by
  have hb : (b.setWidth 32).toInt = b.toNat :=
    (BitVec.toInt_setWidth b).trans (Int.bmod_eq_of_le (by omega) (by omega))
  rw [clampPos, clamp_eq_self (by omega) (by omega), BitVec.ofInt_toInt, trunc8_setWidth]

/-! The replacement of one rectangle. -/

/-- A position command's whole effect is a new rectangle and the response OK (R121, R122). -/
theorem exec_of_posTarget {i : Instr} {m : Mov} (h : i.posTarget = some m) (s : State) :
    ∃ r, exec i s = .next ((s.setRect m r).respond .ok) := by
  cases i with
  | setposu8 m' x y w h' | setpos m' x y w h' => cases h; exact ⟨_, rfl⟩
  | enable t | disable t | setblend t v | setobj t v | setbg t bg v | reset t | commit => cases h

theorem State.setRect_rect_same (s : State) (m : Mov) (r : Rect) : ((s.setRect m r).respond .ok).rect m = r := by
  simp

/-- The frame of a new rectangle: the other rectangle, the flag bytes, and all outside the cache (R120). -/
theorem State.setRect_frame (s : State) (m : Mov) (r : Rect) :
    (∀ m', m' ≠ m → ((s.setRect m r).respond .ok).rect m' = s.rect m') ∧
      (∀ t, ((s.setRect m r).respond .ok).wb t = s.wb t) ∧ ((s.setRect m r).respond .ok).resp = .ok ∧
      KeepsOutside s ((s.setRect m r).respond .ok) :=
  ⟨fun m' hm => by rw [State.respond_rect, State.setRect_rect, if_neg hm], by simp, rfl, by constructor <;> simp⟩

/-- Storing the rectangle a window already has changes nothing. -/
theorem State.setRect_self (s : State) (m : Mov) :
    s.setRect m ⟨(s.rect m).x, (s.rect m).y, (s.rect m).w, (s.rect m).h⟩ = s := by cases m <;> rfl

theorem State.respond_self {s : State} {r : Resp} (h : s.resp = r) : s.respond r = s := by subst h; rfl

/-- SETPOS of the rectangle a window has changes nothing where its position is on the screen (R122 (f)). -/
theorem exec_setpos_stored {s : State} {m : Mov} (hx : (s.rect m).x.toNat ≤ s.cfg.screenW)
    (hy : (s.rect m).y.toNat ≤ s.cfg.screenH) (hresp : s.resp = .ok) :
    exec (.setpos m ((s.rect m).x.setWidth 32) ((s.rect m).y.setWidth 32) ((s.rect m).w.setWidth 32)
      ((s.rect m).h.setWidth 32)) s = .next s := by
  simp only [exec, execSetpos, clampPos_setWidth hx, clampPos_setWidth hy, trunc8_setWidth, State.setRect_self,
    State.respond_self hresp]

/-! One statement at a time. -/

/-- Settles O19: the clamp and narrowing of each operand, the frame of a new rectangle, and the rectangle stored as one
that SETPOS keeps. -/
theorem setposResult : Obligations.SetposResult := by
  intro m x y w h s hW hH
  refine ⟨fun a0 a1 a2 a3 => decode_encode (.setpos m a0 a1 a2 a3), ?_⟩
  obtain ⟨hrects, hflags, hresp, houtside⟩ :=
    s.setRect_frame m ⟨clampPos x s.cfg.screenW, clampPos y s.cfg.screenH, trunc8 w, trunc8 h⟩
  refine ⟨_, rfl, ?_, ?_, ?_, ?_, hrects, hflags, hresp, houtside, exec_setpos_stored ?_ ?_ hresp⟩ <;>
    rw [State.setRect_rect_same]
  · exact clampPos_toNat x hW
  · exact clampPos_toNat y hH
  · exact BitVec.toNat_setWidth 8 w
  · exact BitVec.toNat_setWidth 8 h
  · rw [houtside.cfg]; exact clampPos_le x hW
  · rw [houtside.cfg]; exact clampPos_le y hH

/-- Settles O20: the bound of a clamped position, and a SETPOSU8 of 255 on the screen of the reset state. -/
theorem setposBounds : Obligations.SetposBounds := by
  refine ⟨fun m x y w h s hW hH => ⟨_, rfl, ?_, ?_⟩, fun v lo hi h => clamp_clamp v h,
    ⟨255, 255, 0, 0, _, rfl, by decide, by decide⟩⟩ <;>
    rw [State.setRect_rect_same]
  · exact clampPos_le x hW
  · exact clampPos_le y hH

/-- Settles O18: the decoder takes the four bytes out of `arg0`, and the command stores them. -/
theorem setposu8Result : Obligations.Setposu8Result := by
  intro m x y w h s
  obtain ⟨hrects, hflags, hresp, houtside⟩ := s.setRect_frame m ⟨x, y, w, h⟩
  refine ⟨fun a0 _ _ _ => ?_, _, rfl, ?_, ?_, ?_, ?_, hrects, hflags, hresp, houtside⟩
  case refine_1 => exact decodeOfEncode _ _ rfl (fun _ _ _ _ _ _ => (packBytes_extractLsb' a0).symm) nofun
  all_goals rw [State.setRect_rect_same]

/-- Settles O21: both commands replace one rectangle (`exec_of_posTarget`), and the frame of that. -/
theorem positionCommandFrame : Obligations.PositionCommandFrame := by
  intro i m s hi
  obtain ⟨r, hexec⟩ := exec_of_posTarget hi s
  obtain ⟨hrects, hflags, hresp, houtside⟩ := s.setRect_frame m r
  exact ⟨_, hexec, houtside, hresp, hflags, hrects, fun m' => congrArg (BitVec.getLsbD · 7) (hflags m'.slot)⟩

end Sys2Proof.Machine
end

section
/-! The extent steps of the movable windows (R124) and the edges they write (R125). -/

namespace Sys2Proof.Machine

theorem edgeByte_toNat (pos size : Byte) : (edgeByte pos size).toNat = (pos.toNat + size.toNat) % 256 :=
  BitVec.toNat_ofNat ..

/-- Settles O27: the low byte of the sum (`edge_eq`) below 256, and from 256 on, where a sum of two bytes stays below
512. -/
theorem edgeValue : Obligations.EdgeValue := by
  intro ovf pos size
  have hbyte := edgeByte_toNat pos size
  refine ⟨fun hfits => ⟨edgeByte pos size, ?_, by omega⟩, fun hover => ⟨?_, edgeByte pos size, ?_, by omega⟩⟩
  · rw [edge_eq, if_pos (.inr hfits)]
  · rw [edge_eq, if_neg (by simp [hover])]
  · rw [edge_eq, if_pos (.inl rfl)]

/-- The horizontal extents are written at `SEQ` 2 and 5 and at no other time (R85). -/
theorem seqOp_eq_horizontal_iff (n : BitVec 4) (m : Mov) :
    seqOp n = some (.horizontal m) ↔ (n, m) ∈ [((2 : BitVec 4), Mov.win0), (5, .win1)] := by
  cases m <;> revert n <;> decide

/-- The vertical extents are written at `SEQ` 3 and 6 and at no other time (R85). -/
theorem seqOp_eq_vertical_iff (n : BitVec 4) (m : Mov) :
    seqOp n = some (.vertical m) ↔ (n, m) ∈ [((3 : BitVec 4), Mov.win0), (6, .win1)] := by
  cases m <;> revert n <;> decide

/-- The one write step at `SEQ` 9 is the enable summary (R85). -/
theorem ne_nine_of_seqOp {n : BitVec 4} {op : SeqOp} (h : seqOp n = some op) (hop : op ≠ .summary) : n ≠ 9 := by
  rintro rfl
  cases h
  exact hop rfl

theorem commitStep_of_error {s : State} {op : SeqOp} {f : Fault} (ho : seqOp s.seq = some op)
    (he : stepEvent s op = .error f) : commitStep s = .fault f := by
  simp only [commitStep, ho, he]

/-- A write step other than the summary whose transaction writes a full register: the register takes the value, and
nothing else of the registers or the cache changes. -/
theorem commitStep_full_write {s : State} {op : SeqOp} {a : Nat} {v : Reg16} (hwf : s.mem.wf = true)
    (ho : seqOp s.seq = some op) (hop : op ≠ .summary) (he : stepEvent s op = .ok ⟨a, 0xFFFF, v⟩) :
    ∃ u, commitStep s = .next u ∧ u.cfg = s.cfg ∧ u.seq = s.seq + 1 ∧ KeepsCache s u ∧ u.reg a = v ∧
      (∀ b, b ≠ a → u.reg b = s.reg b) ∧ u.trace = s.trace ++ [⟨a, 0xFFFF, v⟩] := by
  refine ⟨_, commitStep_of_event ho he, State.advance_cfg _,
    (State.advance_seq _).trans (if_neg (ne_nine_of_seqOp ho hop)), ⟨by simp, by simp⟩, ?_, fun b hb => ?_,
    State.advance_trace _⟩
  · rw [State.advance_reg, State.busWrite_reg hwf, if_pos rfl, WriteEvent.merge_full]
  · rw [State.advance_reg, State.busWrite_reg hwf, if_neg hb]

theorem extentEvent_of_overflow {s : State} (hovf : s.cfg.edgeOvf = .fault) {pos size : Byte}
    (h : 255 < pos.toNat + size.toNat) (m : Mov) (a : Nat) :
    extentEvent s m a pos size = .error (.edgeOverflow m s.seq) := by
  rw [extentEvent_eq, if_neg (by simp [hovf, h])]

/-- Settles O26: either extent step is a full write of its edges where those have a value, and faults where the second
has none. -/
theorem extentSteps : Obligations.ExtentSteps := by
  refine ⟨seqOp_eq_horizontal_iff, seqOp_eq_vertical_iff, fun s m hwf => ⟨fun hop hedge => ?_, fun hop hovf hover => ?_,
    fun hop hedge => ?_, fun hop hovf hover => ?_⟩⟩
  · obtain ⟨u, hstep, hcfg, hseq, hcache, hreg, hother, htrace⟩ :=
      commitStep_full_write hwf hop nofun ((extentEvent_eq ..).trans (if_pos hedge))
    exact ⟨u, hstep, hseq, hcache, by rw [State.winh, hcfg]; exact hreg, hother, htrace⟩
  · exact commitStep_of_error hop (extentEvent_of_overflow hovf hover m _)
  · obtain ⟨u, hstep, hcfg, hseq, hcache, hreg, hother, htrace⟩ :=
      commitStep_full_write hwf hop nofun ((extentEvent_eq ..).trans (if_pos hedge))
    exact ⟨u, hstep, hseq, hcache, by rw [State.winv, hcfg]; exact hreg, hother, htrace⟩
  · exact commitStep_of_error hop (extentEvent_of_overflow hovf hover m _)

end Sys2Proof.Machine
end

section
/-! The enable summary, the step that writes it (R144, R145), and the order of the write steps (R147). -/

namespace Sys2Proof.Machine

/-- The enable summary bit by bit (R144). -/
theorem State.summary_bits (s : State) :
    s.summary.getLsbD 0 = s.en .win0 ∧ s.summary.getLsbD 1 = s.en .win1 ∧ s.summary.getLsbD 2 = s.en .obj := by
  have hbits : ∀ a b c : Bool, (BitVec.ofBool c ++ BitVec.ofBool b ++ BitVec.ofBool a).getLsbD 0 = a ∧
      (BitVec.ofBool c ++ BitVec.ofBool b ++ BitVec.ofBool a).getLsbD 1 = b ∧
      (BitVec.ofBool c ++ BitVec.ofBool b ++ BitVec.ofBool a).getLsbD 2 = c := by decide
  exact hbits _ _ _

/-- Settles O29: the three bits of the summary, none of them read from the outside Window. -/
theorem summaryValue : Obligations.SummaryValue := by
  intro s
  obtain ⟨h0, h1, h2⟩ := s.summary_bits
  exact ⟨h0, h1, h2, fun v => by simp [State.summary, State.en]⟩

/-- A write step's response: it holds before step 9 and is OK after it (R147). -/
theorem commitStep_resp {s u : State} (h : commitStep s = .next u) : u.resp = if s.seq = 9 then .ok else s.resp := by
  obtain ⟨_, e, _, _, rfl⟩ := commitStep_next h
  rw [State.advance_resp, State.busWrite_seq, State.busWrite_resp]

/-- A step of a busy block leaves the cache alone (R148). -/
theorem step_busy_keepsCache {s u : State} (hbusy : s.seq ≠ 0) (h : step s = .next u) : KeepsCache s u := by
  obtain ⟨hidle, -⟩ | ⟨-, e, -, -, rfl⟩ := step_publishes h
  · exact absurd hidle hbusy
  · exact ⟨by simp, by simp⟩

/-- Settles O30: the packer's field write of three bits (O22) at bit 13, and the advance of `SEQ` past step 9. -/
theorem summaryStep : Obligations.SummaryStep := by
  refine ⟨fun s u => step_busy_keepsCache, fun s hwf hseq => ?_⟩
  have hstep := commitStep_of_event (s := s) (by rw [hseq]; rfl) (summaryEvent_eq s)
  have hfieldWrite : fieldWrite s.cfg.dispcntAddr 13 3 s.summary =
      ⟨s.cfg.dispcntAddr, 0xE000, s.summary ++ (0 : BitVec 13)⟩ := Except.ok.inj (summaryEvent_eq s)
  obtain ⟨hpacker, -⟩ := fieldWriteMerges
  obtain ⟨-, -, -, hfield, hkept, hother⟩ := hpacker s s.cfg.dispcntAddr 13 3 s.summary hwf (by decide) (by decide)
  rw [hfieldWrite] at hfield hkept hother
  obtain ⟨h0, h1, h2⟩ := s.summary_bits
  refine ⟨_, hstep, by simp [hseq], by simp [hseq], ⟨by simp, by simp⟩, ?_⟩
  simp only [State.dispcnt, State.advance_cfg, State.busWrite_cfg, State.advance_reg]
  refine ⟨(hfield 0 (by decide)).trans h0, (hfield 1 (by decide)).trans h1, (hfield 2 (by decide)).trans h2, ?_, hother,
    State.advance_trace _⟩
  apply BitVec.eq_of_getLsbD_eq
  intro k hk
  simpa [hk] using hkept k (.inl hk)

/-- Settles O31: what a command and a write step do to `SEQ`, and where a write step faults. -/
theorem sequencing : Obligations.Sequencing := by
  refine ⟨fun s => ⟨_, rfl, rfl⟩, fun s u h => ?_, fun s f hlo hhi h => ?_, fun i s hi => ?_⟩
  · obtain ⟨hlo, hhi, hnext⟩ := commitStep_seq h
    have hresp := commitStep_resp h
    by_cases hnine : s.seq = 9
    · rw [if_pos hnine] at hresp
      rw [hnine] at hnext
      exact .inr ⟨hnine, BitVec.eq_of_toNat_eq hnext, hresp⟩
    · have hne : s.seq.toNat ≠ 9 := fun hn => hnine (BitVec.eq_of_toNat_eq hn)
      rw [if_neg hnine] at hresp
      rw [if_neg hne] at hnext
      exact .inl ⟨by simp only [List.mem_cons, List.not_mem_nil, or_false]; omega, hnext, hresp⟩
  · obtain ⟨hnone, -⟩ | ⟨m, hf, -⟩ := commitStep_fault h
    · obtain hzero | hten := (seqOp_eq_none_iff _).1 hnone
      · rw [hzero] at hlo; exact absurd hlo (by decide)
      · omega
    · exact ⟨m, hf⟩
  · obtain ⟨u, hu⟩ := exec_exists_next i s
    exact ⟨u, hu, (exec_seq hu).resolve_right fun ⟨hcommit, _⟩ => hi hcommit⟩

/-- Settles O32: the laws of `State.setSeq`. -/
theorem commitTakenFrame : Obligations.CommitTakenFrame := fun s =>
  ⟨s.setSeq 1, rfl, rfl, ⟨s.setSeq_wb 1, s.setSeq_rect 1⟩, rfl, rfl, rfl, rfl, rfl, rfl, fun _ => rfl⟩

end Sys2Proof.Machine
end

section
/-! Transactions that share no bit of a register: their order makes no difference (R149 (b)), and each one's bits hold
its data at the end. -/

namespace Sys2Proof.Machine

/-- The two transactions write different registers or different bits of one register. -/
def WriteEvent.Disjoint (e e' : WriteEvent) : Prop := e.addr = e'.addr → e.mask &&& e'.mask = 0

/-- The order of the two transactions makes no difference to the registers. -/
def WriteEvent.Commutes (e e' : WriteEvent) : Prop :=
  ∀ regs, WriteEvent.onRegs (WriteEvent.onRegs regs e) e' = WriteEvent.onRegs (WriteEvent.onRegs regs e') e

theorem WriteEvent.Disjoint.commutes {e e' : WriteEvent} (h : e.Disjoint e') : e.Commutes e' := by
  intro regs
  funext a
  unfold WriteEvent.onRegs
  by_cases ha : a = e.addr
  · by_cases ha' : a = e'.addr
    · simp only [if_pos ha, if_pos ha']
      apply BitVec.eq_of_getLsbD_eq
      intro k hk
      simp only [WriteEvent.merge_bit _ _ hk]
      cases hbit : e'.mask.getLsbD k with
      | false => rfl
      | true => simp [bit_of_zeros (h (ha.symm.trans ha')) hbit]
    · simp only [if_neg ha']
  · simp only [if_neg ha]

/-- Under R7 no two of the nine transactions share a bit: those to one register write different bytes of it. -/
theorem commitTrace_disjoint {s : State} (hw : s.cfg.wellFormed = true) :
    (commitTrace s).Pairwise WriteEvent.Disjoint := by
  obtain ⟨-, -, hnodup⟩ := s.cfg.wellFormed_iff.1 hw
  simp only [Config.indices, List.nodup_cons, List.mem_cons, not_or] at hnodup
  simp only [commitTrace, WriteEvent.Disjoint, List.pairwise_cons, List.mem_cons]
  grind

/-- A list of transactions none of which writes a bit of a register keeps it. -/
theorem foldl_onRegs_bit_kept {es : List WriteEvent} {a k : Nat} (hk : k < 16)
    (h : ∀ e ∈ es, e.addr = a → e.mask.getLsbD k = false) (regs : Nat → Reg16) :
    (es.foldl WriteEvent.onRegs regs a).getLsbD k = (regs a).getLsbD k := by
  induction es generalizing regs with
  | nil => rfl
  | cons e es ih =>
    rw [List.foldl_cons, ih fun e' he' => h e' (List.mem_cons_of_mem _ he')]
    unfold WriteEvent.onRegs
    split
    · next ha => rw [WriteEvent.merge_bit _ _ hk, h e List.mem_cons_self ha.symm]; rfl
    · rfl

/-- Of transactions that share no bit, each leaves its data in the bits of its mask. -/
theorem foldl_onRegs_bit_written {es : List WriteEvent} (hes : es.Pairwise WriteEvent.Disjoint) {e : WriteEvent}
    (he : e ∈ es) {k : Nat} (hk : k < 16) (hmask : e.mask.getLsbD k = true) (regs : Nat → Reg16) :
    (es.foldl WriteEvent.onRegs regs e.addr).getLsbD k = e.data.getLsbD k := by
  induction es generalizing regs with
  | nil => cases he
  | cons e' es ih =>
    obtain ⟨hhead, htail⟩ := List.pairwise_cons.1 hes
    rw [List.foldl_cons]
    obtain rfl | he := List.mem_cons.1 he
    · have hlater : ∀ f ∈ es, f.addr = e.addr → f.mask.getLsbD k = false := fun f hf haddr =>
        bit_of_zeros (BitVec.and_comm .. ▸ hhead f hf haddr.symm) hmask
      rw [foldl_onRegs_bit_kept hk hlater, WriteEvent.onRegs, if_pos rfl, WriteEvent.merge_bit _ _ hk, if_pos hmask]
    · exact ih htail he _

/-- Transactions written one after another, as their effect on the table of registers. -/
theorem foldl_busWrite_reg {s : State} (hwf : s.mem.wf = true) (es : List WriteEvent) :
    (es.foldl State.busWrite s).reg = es.foldl WriteEvent.onRegs s.reg := by
  induction es generalizing s with
  | nil => rfl
  | cons e es ih =>
    have hone : (s.busWrite e).reg = WriteEvent.onRegs s.reg e := funext (State.busWrite_reg hwf e)
    rw [List.foldl_cons, ih (State.busWrite_mem_wf hwf e), hone, List.foldl_cons]

theorem commitTrace_commutes {s : State} (hw : s.cfg.wellFormed = true) :
    ∀ e ∈ commitTrace s, ∀ e' ∈ commitTrace s, e.Commutes e' := by
  have hsymm : Std.Symm WriteEvent.Commutes := ⟨fun _ _ h regs => (h regs).symm⟩
  exact fun e he e' he' =>
    ((commitTrace_disjoint hw).imp WriteEvent.Disjoint.commutes).forall_of_forall (fun _ _ _ => rfl) he he'

/-- Settles O37: the nine transactions commute, so every permutation of them makes the same table of registers. -/
theorem commitOrderIrrelevant : Obligations.CommitOrderIrrelevant := by
  intro s es hw hwf hperm a
  have hregs : (commitTrace s).foldl WriteEvent.onRegs s.reg = es.foldl WriteEvent.onRegs s.reg :=
    hperm.symm.foldl_eq' (fun e he e' he' regs => commitTrace_commutes hw e he e' he' regs) s.reg
  rw [foldl_busWrite_reg hwf, foldl_busWrite_reg hwf, hregs]

end Sys2Proof.Machine
end

section
/-! The whole of a commit (R143, R149): its run, its end state, and its stop at the first overflowing edge. -/

namespace Sys2Proof.Machine

/-! Runs. -/

/-- A run goes on from the state its first part ends in. -/
theorem stepN_add {j : Nat} {s u : State} (h : stepN j s = .next u) (k : Nat) : stepN (j + k) s = stepN k u := by
  induction j generalizing s with
  | zero => cases h; rw [Nat.zero_add]
  | succ j ih =>
    rw [Nat.succ_add]
    cases hs : step s with
    | next v => rw [stepN_of_next hs] at h ⊢; exact ih h
    | fault f => rw [stepN_of_fault hs] at h; cases h
    | refused r => simp only [stepN, hs] at h; cases h

theorem WritesFrom.take {s : State} {es : List WriteEvent} {n : BitVec 4} (h : WritesFrom s n es) (k : Nat) :
    WritesFrom s n (es.take k) := by
  induction es generalizing n k with
  | nil => simpa using h
  | cons e es ih =>
    cases k with
    | zero => trivial
    | succ k =>
      obtain ⟨hn, hop, hes⟩ := h
      exact ⟨hn, hop, ih hes k⟩

/-- A commit after its first `k` write steps. -/
theorem InCommit.run_take {s t : State} {k : Nat} (h : InCommit s t 1 []) (hw : s.cfg.wellFormed = true)
    (hk : k ≤ 9) (hes : WritesFrom s 1 ((commitTrace s).take k)) :
    ∃ v, stepN k t = .next v ∧ InCommit s v (nextSeq^[k] 1) ((commitTrace s).take k) := by
  have hlength : ((commitTrace s).take k).length = k := List.length_take_of_le hk
  have hrun := h.run hw hes
  rwa [hlength] at hrun

/-- A commit that cannot fault runs to its end, and responds there (R147). -/
theorem InCommit.completes {s t : State} (h : InCommit s t 1 []) (hw : s.cfg.wellFormed = true)
    (hedges : s.edgesOk) : ∃ u, stepN 9 t = .next u ∧ InCommit s u 0 (commitTrace s) ∧ u.resp = .ok := by
  obtain ⟨v, hv, hnine⟩ := h.run_take (k := 8) hw (by decide) ((writesFrom_commitTrace hedges).take 8)
  obtain ⟨u, hu, hend, hresp⟩ := hnine.next hw (by decide) rfl (summaryEvent_eq s)
  exact ⟨u, (stepN_add hv 1).trans (stepN_of_next hu), hend, hresp⟩

/-- The state that has taken a COMMIT. -/
theorem InCommit.taken {s : State} (hwf : s.mem.wf = true) : InCommit s (s.setSeq 1) 1 [] :=
  { InCommit.start (s := s.setSeq 1) hwf rfl with wb := s.setSeq_wb 1, rect := s.setSeq_rect 1 }

/-- The environment's turn during a commit (R148). -/
theorem InCommit.envMove {s t : State} {n : BitVec 4} {es : List WriteEvent} (h : InCommit s t n es) :
    InCommit s t.envMove n es where
  cfg := h.cfg
  wasReset := h.wasReset
  wb x := (t.envMove_wb x).trans (h.wb x)
  rect m := (t.envMove_rect m).trans (h.rect m)
  seq := h.seq
  trace := h.trace
  host := h.host
  regs := h.regs.envMove

/-! The registers at the end (R149). -/

/-- At the end of a commit each of its transactions has left its data in the bits the block owns of its register. -/
theorem InCommit.bit_written {s u : State} (h : InCommit s u 0 (commitTrace s)) (hw : s.cfg.wellFormed = true)
    {e : WriteEvent} (he : e ∈ commitTrace s) {k : Nat} (hk : k < 16) (hmask : e.mask.getLsbD k = true)
    (howned : e.addr ≠ s.cfg.dispcntAddr ∨ 13 ≤ k) : (u.reg e.addr).getLsbD k = e.data.getLsbD k := by
  rw [h.regs.bits _ k hk (h.cfg.symm ▸ howned)]
  exact foldl_onRegs_bit_written (commitTrace_disjoint hw) he hk hmask _

/-- A window register that a transaction of the commit writes in full. -/
theorem InCommit.full_written {s u : State} (h : InCommit s u 0 (commitTrace s)) (hw : s.cfg.wellFormed = true)
    {a : Nat} {v : Reg16} (he : ⟨a, 0xFFFF, v⟩ ∈ commitTrace s) (ha : a ∈ s.cfg.indices.dropLast) : u.reg a = v := by
  apply BitVec.eq_of_getLsbD_eq
  intro k hk
  have hmask : ∀ k < 16, (0xFFFF : Reg16).getLsbD k = true := by decide
  exact h.bit_written hw he hk (hmask k hk) (.inl (ne_dispcntAddr_of_window hw ha))

/-- The end state of a commit. -/
theorem InCommit.published {s u : State} (h : InCommit s u 0 (commitTrace s)) (hw : s.cfg.wellFormed = true) :
    Published s u where
  winctlA := h.winctlA hw
  winctlB := h.winctlB hw
  winh m := by
    rw [State.winh, h.cfg]
    exact h.full_written hw (by cases m <;> simp [commitTrace, Mov.id]) (by cases m <;> simp [Config.indices, Mov.id])
  winv m := by
    rw [State.winv, h.cfg]
    exact h.full_written hw (by cases m <;> simp [commitTrace, Mov.id]) (by cases m <;> simp [Config.indices, Mov.id])
  summary := by
    have hmem : ⟨s.cfg.dispcntAddr, 0xE000, s.summary ++ (0 : BitVec 13)⟩ ∈ commitTrace s := by
      simp [commitTrace, State.summary]
    have hmask : ∀ k < 3, (0xE000 : Reg16).getLsbD (13 + k) = true := by decide
    have hdata : ∀ v : BitVec 3, ∀ k < 3, (v ++ (0 : BitVec 13)).getLsbD (13 + k) = v.getLsbD k := by decide
    change _ = s.summary
    apply BitVec.eq_of_getLsbD_eq
    intro k hk
    have hbit := h.bit_written hw hmem (k := 13 + k) (by omega) (hmask k hk) (.inr (Nat.le_add_right ..))
    rw [BitVec.getLsbD_extractLsb', State.dispcnt, h.cfg, hbit, hdata _ k hk, decide_eq_true hk, Bool.true_and]

theorem InCommit.keepsCache {s u : State} {n : BitVec 4} {es : List WriteEvent} (h : InCommit s u n es) :
    KeepsCache s u := ⟨h.wb, h.rect⟩

/-! What depends on the cache alone. -/

theorem KeepsCache.trans {s u v : State} (h : KeepsCache s u) (h' : KeepsCache u v) : KeepsCache s v :=
  ⟨fun t => (h'.wb t).trans (h.wb t), fun m => (h'.rect m).trans (h.rect m)⟩

theorem KeepsCache.enStatus {s u : State} (h : KeepsCache s u) : u.enStatus = s.enStatus := by
  simp only [State.enStatus, State.en, h.wb]

theorem KeepsCache.commitTrace_eq {s u : State} (h : KeepsCache s u) (hcfg : u.cfg = s.cfg) :
    commitTrace u = commitTrace s := by
  simp only [commitTrace, State.en, h.wb, h.rect, hcfg]

theorem KeepsCache.published {c c' u : State} (h : KeepsCache c c') (hu : Published c' u) : Published c u where
  winctlA := by rw [hu.winctlA, h.wb, h.wb]
  winctlB := by rw [hu.winctlB, h.wb, h.wb]
  winh m := by rw [hu.winh, h.rect]
  winv m := by rw [hu.winv, h.rect]
  summary := by simp only [hu.summary, State.en, h.wb]

theorem KeepsCache.edgesOk {s u : State} (h : KeepsCache s u) (hcfg : u.cfg = s.cfg) (hs : s.edgesOk) : u.edgesOk := by
  simpa only [State.edgesOk, h.rect, hcfg] using hs

/-! The stop at the first overflowing edge (R125, R166). -/

theorem firstOverflow_of_not_edgesOk {s : State} (h : ¬ s.edgesOk) :
    s.cfg.edgeOvf = .fault ∧ ∃ m n, s.firstOverflow = some (m, n) := by
  obtain ⟨hmode, hfits⟩ := not_or.1 h
  constructor
  · cases hovf : s.cfg.edgeOvf with
    | fault => rfl
    | wrap8 => exact absurd hovf hmode
  · cases hfirst : s.firstOverflow with
    | none => exact absurd (firstOverflow_eq_none.1 hfirst) hfits
    | some p => exact ⟨p.1, p.2, rfl⟩

theorem horizontalEvent_of_fits {s : State} {m : Mov} (h : (s.rect m).x.toNat + (s.rect m).w.toNat ≤ 255) :
    stepEvent s (.horizontal m) =
      .ok ⟨s.cfg.winhBase + m.id, 0xFFFF, (s.rect m).x ++ edgeByte (s.rect m).x (s.rect m).w⟩ :=
  (extentEvent_eq ..).trans (if_pos (.inr h))

theorem verticalEvent_of_fits {s : State} {m : Mov} (h : (s.rect m).y.toNat + (s.rect m).h.toNat ≤ 255) :
    stepEvent s (.vertical m) =
      .ok ⟨s.cfg.winvBase + m.id, 0xFFFF, (s.rect m).y ++ edgeByte (s.rect m).y (s.rect m).h⟩ :=
  (extentEvent_eq ..).trans (if_pos (.inr h))

/-- The write steps before the first overflowing edge perform their transactions (R166). -/
theorem writesFrom_before_overflow {s : State} {m : Mov} {n : Nat} (h : s.firstOverflow = some (m, n)) :
    WritesFrom s 1 ((commitTrace s).take (n - 1)) := by
  obtain ⟨-, hcontrol⟩ := slotPlacement
  obtain ⟨hc0, hc1, -⟩ := hcontrol s
  obtain ⟨-, rfl, -⟩ | ⟨hx0, ⟨-, rfl, -⟩ | ⟨⟨-, hy0⟩, ⟨-, rfl, -⟩ | ⟨-, rfl, hx1, -⟩⟩⟩ := firstOverflow_eq_some h
  · exact ⟨by decide, ⟨_, rfl, hc0⟩, trivial⟩
  · exact ⟨by decide, ⟨_, rfl, hc0⟩, by decide, ⟨_, rfl, horizontalEvent_of_fits hx0⟩, trivial⟩
  · exact ⟨by decide, ⟨_, rfl, hc0⟩, by decide, ⟨_, rfl, horizontalEvent_of_fits hx0⟩,
      by decide, ⟨_, rfl, verticalEvent_of_fits hy0⟩, by decide, ⟨_, rfl, hc1⟩, trivial⟩
  · exact ⟨by decide, ⟨_, rfl, hc0⟩, by decide, ⟨_, rfl, horizontalEvent_of_fits hx0⟩,
      by decide, ⟨_, rfl, verticalEvent_of_fits hy0⟩, by decide, ⟨_, rfl, hc1⟩,
      by decide, ⟨_, rfl, horizontalEvent_of_fits hx1⟩, trivial⟩

/-- The first overflow stands at an extent step, which has no transaction under `fault`, in any state with the
rectangles of `s` (R164). -/
theorem stepEvent_firstOverflow {s t : State} {m : Mov} {n : Nat} (h : s.firstOverflow = some (m, n))
    (hovf : t.cfg.edgeOvf = .fault) (hrect : ∀ m, t.rect m = s.rect m) :
    n ∈ [2, 3, 5, 6] ∧
      ∃ op, seqOp (BitVec.ofNat 4 n) = some op ∧ stepEvent t op = .error (.edgeOverflow m t.seq) := by
  obtain ⟨rfl, rfl, hsum⟩ | ⟨-, ⟨rfl, rfl, hsum⟩ | ⟨-, ⟨rfl, rfl, hsum⟩ | ⟨rfl, rfl, -, hsum⟩⟩⟩ :=
    firstOverflow_eq_some h <;>
    rw [← hrect] at hsum <;>
    exact ⟨by decide, _, rfl, extentEvent_of_overflow hovf hsum _ _⟩

/-- A commit with an overflowing edge under `fault` writes what comes before it and stops there (R147, R166). -/
theorem InCommit.overflows {s t : State} {m : Mov} {n : Nat} (h : InCommit s t 1 []) (hw : s.cfg.wellFormed = true)
    (hovf : s.cfg.edgeOvf = .fault) (hfirst : s.firstOverflow = some (m, n)) :
    n ∈ [2, 3, 5, 6] ∧ ∃ u, stepN (n - 1) t = .next u ∧
      InCommit s u (BitVec.ofNat 4 n) ((commitTrace s).take (n - 1)) ∧
      step u = .fault (.edgeOverflow m (BitVec.ofNat 4 n)) := by
  obtain ⟨hn, -⟩ := stepEvent_firstOverflow hfirst hovf fun _ => rfl
  have hbounds : ∀ n ∈ [2, 3, 5, 6], n - 1 ≤ 9 ∧ nextSeq^[n - 1] 1 = BitVec.ofNat 4 n ∧ BitVec.ofNat 4 n ≠ 0 := by
    decide
  obtain ⟨hle, hseq, hbusy⟩ := hbounds n hn
  obtain ⟨u, hu, hat⟩ := h.run_take hw hle (writesFrom_before_overflow hfirst)
  rw [hseq] at hat
  obtain ⟨-, op, hop, hevent⟩ := stepEvent_firstOverflow (t := u.envMove) hfirst (by simpa [hat.cfg] using hovf)
    (by simp [hat.rect])
  refine ⟨hn, u, hu, hat, ?_⟩
  rw [step_busy (hat.cfg.symm ▸ hw) (hat.seq.symm ▸ hbusy),
    commitStep_of_error (by rw [State.envMove_seq, hat.seq]; exact hop) hevent, State.envMove_seq, hat.seq]

/-- The word of COMMIT, whatever stands on the argument ports (R143). -/
theorem decode_commit_word (a0 a1 a2 a3 : Arg32) : decode ⟨0xC000, a0, a1, a2, a3⟩ = .ok .commit :=
  decodeOfEncode .commit _ rfl nofun nofun

/-- Settles O34: the run of nine write steps (`InCommit.completes`), or its stop (`InCommit.overflows`). -/
theorem commitCompletes : Obligations.CommitCompletes := by
  refine ⟨decode_commit_word, fun s hw hwf hidle hedges => ?_, fun s hw hwf hidle hedges => ?_⟩
  · obtain ⟨hovf, m, n, hfirst⟩ := firstOverflow_of_not_edgesOk hedges
    obtain ⟨hn, u, hu, hat, hfault⟩ := (InCommit.taken hwf).overflows hw hovf hfirst
    have hsteps : ∀ n ∈ [2, 3, 5, 6], 9 = n - 1 + (9 - n + 1) := by decide
    refine ⟨_, u, m, n, hfirst, hn, rfl, hu, hat.trace, hfault, ?_⟩
    rw [hsteps n hn, stepN_add hu, stepN_of_fault hfault]
  · have htaken := InCommit.taken hwf
    have hbusy : ∀ k < 9, nextSeq^[k] 1 ≠ 0 := by decide
    obtain ⟨u, hu, hend, hresp⟩ := htaken.completes hw hedges
    refine ⟨_, u, rfl, rfl, fun k hk => ?_, hu, hend.seq, hresp, hend.keepsCache, hend.keepsCache.enStatus, hend.host,
      hend.cfg, hend.trace, hend.published hw⟩
    obtain ⟨v, hv, hat⟩ := htaken.run_take hw hk.le ((writesFrom_commitTrace hedges).take k)
    exact ⟨v, hv, v.busy_iff.2 (hat.seq.symm ▸ hbusy k hk)⟩

/-! From the command port (R58). -/

/-- The step that takes the COMMIT: the environment's turn, and `SEQ` goes to 1. -/
theorem step_takes_commit {s : State} {c : Command} {rest : List HostMove} (hw : s.cfg.wellFormed = true)
    (hidle : s.seq = 0) (hreset : s.wasReset = true) (hhost : s.host = .command c :: rest)
    (hdec : decode c = .ok .commit) : step s = .next (s.takeHost.setSeq 1).envMove := by
  have hrest : s.takeHost = { s with host := rest } := by simp only [State.takeHost, hhost, List.tail_cons]
  rw [step_idle hw hidle, takeMove_of_decode (s := s.envMove) hreset hhost hdec, hrest]
  rfl

/-- A COMMIT on the port of an idle block completes in ten steps. -/
theorem commit_from_port {s : State} {c : Command} {rest : List HostMove} (hw : s.cfg.wellFormed = true)
    (hwf : s.mem.wf = true) (hidle : s.seq = 0) (hreset : s.wasReset = true) (hedges : s.edgesOk)
    (hhost : s.host = .command c :: rest) (hdec : decode c = .ok .commit) :
    ∃ u, stepN 10 s = .next u ∧ InCommit s.takeHost u 0 (commitTrace s) ∧ u.resp = .ok ∧ u.host = rest ∧
      KeepsCache s u ∧ Published s u := by
  have hcache : KeepsCache s s.takeHost := ⟨s.takeHost_wb, s.takeHost_rect⟩
  obtain ⟨u, hu, hend, hresp⟩ :=
    (InCommit.taken (s := s.takeHost) hwf).envMove.completes hw (hcache.edgesOk rfl hedges)
  exact ⟨u, (stepN_of_next (step_takes_commit hw hidle hreset hhost hdec)).trans hu, hend, hresp,
    hend.host.trans (congrArg List.tail hhost), hcache.trans hend.keepsCache, hcache.published (hend.published hw)⟩

/-- Settles O35: the word decodes as COMMIT, which completes (`commit_from_port`). -/
theorem commitFromPort : Obligations.CommitFromPort := by
  intro s a0 a1 a2 a3 rest hw hwf hidle hreset hedges hhost
  obtain ⟨u, hu, hend, hresp, hport, hcache, hpublished⟩ :=
    commit_from_port hw hwf hidle hreset hedges hhost (decode_commit_word ..)
  exact ⟨u, hu, hend.seq, hresp, hcache, hport, hend.trace, hpublished⟩

/-- Settles O36: the first COMMIT keeps the cache, so the second one's transactions and end state are the same. -/
theorem commitIdempotent : Obligations.CommitIdempotent := by
  intro s rest hw hwf hidle hreset hedges hhost
  obtain ⟨u, hu, hend, -, hport, hcache, hfirst⟩ :=
    commit_from_port hw hwf hidle hreset hedges hhost (decode_encode .commit)
  have hcfg : u.cfg = s.cfg := hend.cfg
  obtain ⟨v, hv, hend', -, -, hcache', hsecond⟩ := commit_from_port (s := u) (hcfg.symm ▸ hw) hend.regs.wf hend.seq
    (hend.wasReset.trans hreset) (hcache.edgesOk hcfg hedges) hport (decode_encode .commit)
  have htrace : v.trace = u.trace ++ commitTrace u := hend'.trace
  rw [hcache.commitTrace_eq hcfg] at htrace
  have hagain : Published s v := hcache.published hsecond
  exact ⟨u, v, hu, hv, hcache.trans hcache', ⟨commitTrace s, rfl, hend.trace, htrace⟩,
    hagain.winctlA.trans hfirst.winctlA.symm, hagain.winctlB.trans hfirst.winctlB.symm,
    fun m => (hagain.winh m).trans (hfirst.winh m).symm,
    fun m => (hagain.winv m).trans (hfirst.winv m).symm, hagain.summary.trans hfirst.summary.symm⟩

end Sys2Proof.Machine
end

section
/-! Where a write step raises `EdgeOverflow` (R164), and where a step of the machine faults at all (R160). -/

namespace Sys2Proof.Machine

/-- A write step faults where `SEQ` selects none, and where the one it selects has no transaction. -/
theorem commitStep_fault_op {s : State} {f : Fault} (h : commitStep s = .fault f) :
    (seqOp s.seq = none ∧ f = .illegalSeq s.seq) ∨ ∃ op, seqOp s.seq = some op ∧ stepEvent s op = .error f := by
  unfold commitStep at h
  split at h
  · next hop => cases h; exact .inl ⟨hop, rfl⟩
  · next op hop =>
    split at h
    · next he => cases h; exact .inr ⟨op, hop, he⟩
    · cases h

/-- `EdgeOverflow` is the fault of the two extent steps alone, and names the window whose edge it is (R164). -/
theorem commitStep_edgeOverflow_iff {s : State} {m : Mov} {n : BitVec 4} :
    commitStep s = .fault (.edgeOverflow m n) ↔
      s.cfg.edgeOvf = .fault ∧ s.seq = n ∧
      ((seqOp n = some (.horizontal m) ∧ 255 < (s.rect m).x.toNat + (s.rect m).w.toNat) ∨
       (seqOp n = some (.vertical m) ∧ 255 < (s.rect m).y.toNat + (s.rect m).h.toNat)) := by
  constructor
  · intro h
    obtain ⟨-, hf⟩ | ⟨op, hop, he⟩ := commitStep_fault_op h
    · cases hf
    · cases op with
      | control t => cases he
      | summary => cases he
      | horizontal m' =>
        obtain ⟨hf, hovf, hsum⟩ := extentEvent_error he
        cases hf
        exact ⟨hovf, rfl, .inl ⟨hop, hsum⟩⟩
      | vertical m' =>
        obtain ⟨hf, hovf, hsum⟩ := extentEvent_error he
        cases hf
        exact ⟨hovf, rfl, .inr ⟨hop, hsum⟩⟩
  · rintro ⟨hovf, rfl, ⟨hop, hsum⟩ | ⟨hop, hsum⟩⟩
    · exact commitStep_of_error hop (extentEvent_of_overflow hovf hsum m _)
    · exact commitStep_of_error hop (extentEvent_of_overflow hovf hsum m _)

/-- Settles O28: the two extent steps by their numbers. -/
theorem edgeOverflowExactly : Obligations.EdgeOverflowExactly := by
  intro s m n
  rw [commitStep_edgeOverflow_iff, seqOp_eq_horizontal_iff, seqOp_eq_vertical_iff]

/-- No command faults: each of the nine answers a next state (R160). -/
theorem exec_ne_fault (i : Instr) (s : State) (f : Fault) : exec i s ≠ .fault f := by
  obtain ⟨u, hu⟩ := exec_exists_next i s
  rw [hu]
  exact nofun

/-- An idle block's turn does not fault, whatever stands on the port (R160). -/
theorem takeMove_ne_fault (s : State) (f : Fault) : takeMove s ≠ .fault f := by
  unfold takeMove
  split
  · exact nofun
  · exact nofun
  · split
    · unfold takeCommand
      split
      · exact exec_ne_fault _ _ f
      · exact nofun
    · exact nofun

/-- A step that faults is a write step that does, after the environment's turn. -/
theorem step_fault {s : State} {f : Fault} (h : step s = .fault f) :
    s.seq ≠ 0 ∧ commitStep s.envMove = .fault f := by
  by_cases hw : s.cfg.wellFormed = true
  · by_cases hseq : s.seq = 0
    · exact absurd (step_idle hw hseq ▸ h) (takeMove_ne_fault _ f)
    · exact ⟨hseq, step_busy hw hseq ▸ h⟩
  · cases (step_of_not_wellFormed hw).symm.trans h

/-- Every command but COMMIT responds OK; the taking of COMMIT leaves the response to its last write step (R162). -/
theorem exec_resp {i : Instr} {s u : State} (h : exec i s = .next u) :
    (i ≠ .commit ∧ u.resp = .ok) ∨ (i = .commit ∧ u.resp = s.resp) := by
  obtain ⟨_, _, _, htarget, _, _, _, rfl⟩ | ⟨_, hi, rfl⟩ | ⟨_, _, htarget, rfl⟩ | ⟨hi, rfl⟩ := exec_cases h
  case inl => exact .inl ⟨(by rintro rfl; cases htarget), State.setFlag_resp ..⟩
  case inr.inl => exact .inl ⟨(by rintro rfl; cases hi), State.respond_resp ..⟩
  case inr.inr.inl => exact .inl ⟨(by rintro rfl; cases htarget), State.respond_resp ..⟩
  case inr.inr.inr => exact .inr ⟨hi, rfl⟩

/-- Settles O55: the response of a command (`exec_resp`), and the one fault of a write step that the invariant's bound
on `SEQ` leaves. -/
theorem noCommandFails : Obligations.NoCommandFails := by
  refine ⟨fun i s => ?_, fun s f hinv h => ?_⟩
  · obtain ⟨u, hu⟩ := exec_exists_next i s
    refine ⟨u, hu, fun hi => ?_⟩
    obtain ⟨-, hok⟩ | ⟨hcommit, -⟩ := exec_resp hu
    · exact hok
    · exact absurd hcommit hi
  · obtain ⟨hbusy, hwrite⟩ := step_fault h
    obtain ⟨hnone, -⟩ | ⟨m, hf, hovf, hfits⟩ := commitStep_fault hwrite
    · obtain hzero | hten := (seqOp_eq_none_iff s.seq).1 hnone
      · exact absurd hzero hbusy
      · exact absurd hinv.seq (by omega)
    · exact ⟨hovf, m, hf, s.envMove_rect m ▸ hfits⟩

end Sys2Proof.Machine
end

section
/-! The illegal command, and the response over every step (R162, R163). -/

namespace Sys2Proof.Machine

@[simp] theorem State.raiseIllegal_rect (s : State) (m : Mov) : s.raiseIllegal.rect m = s.rect m :=
  State.respond_rect s _ m

/-- An illegal word on the port of a block reset before responds ILLEGAL and is taken off the port (R163). -/
theorem takeMove_of_illegal {s : State} {c : Command} {rest : List HostMove} {e : Illegal} (hreset : s.wasReset = true)
    (hhost : s.host = .command c :: rest) (hdec : decode c = .error e) :
    takeMove s = .next s.takeHost.raiseIllegal := by
  simp only [takeMove, hhost, takeCommand, hdec, if_pos hreset]

/-- Settles O48: a word in no row does not decode, and raising the exception changes `resp` alone. -/
theorem illegalCommandEffect : Obligations.IllegalCommandEffect := by
  refine ⟨fun s c rest hreset hidle hhost hrows => ?_, fun i s => ?_⟩
  · obtain ⟨-, r, ⟨hr, hmatch⟩, -⟩ | ⟨⟨e, he⟩, -⟩ := decode_row_dichotomy c
    · exact absurd hmatch (hrows r hr)
    · have hstep : blockStep s = .next s.takeHost.raiseIllegal := by
        rw [blockStep, if_pos (s.cmdReady_iff.2 hidle), takeMove_of_illegal hreset hhost he]
      exact ⟨_, hstep, rfl, rfl, ⟨by simp, by simp⟩, hidle, rfl, hreset, rfl, rfl, congrArg List.tail hhost,
        fun _ => rfl⟩
  · obtain ⟨u, hu⟩ := exec_exists_next i s
    exact ⟨u, hu, (exec_resp hu).imp_left And.right⟩

/-- The response of a busy block's step: OK from step 9, held before it (R147, R162). -/
theorem step_busy_resp {s u : State} (h : step s = .next u) (hbusy : s.seq ≠ 0) :
    u.resp = if s.seq = 9 then .ok else s.resp := by
  obtain ⟨-, ⟨hidle, -⟩ | ⟨-, hwrite⟩⟩ := step_next h
  · exact absurd hidle hbusy
  · exact commitStep_resp (s := s.envMove) hwrite

/-- A step of an idle block is its turn at the port, after the environment's. -/
theorem takeMove_of_step {s u : State} (h : step s = .next u) (hidle : s.seq = 0) : takeMove s.envMove = .next u := by
  obtain ⟨-, ⟨-, hmove⟩ | ⟨hbusy, -⟩⟩ := step_next h
  · exact hmove
  · exact absurd hidle hbusy

/-- The response of the step that takes a command: what its decoding and its meaning make it (R162, R163). -/
theorem takeMove_command_resp {s u : State} {c : Command} {rest : List HostMove} (h : takeMove s = .next u)
    (hhost : s.host = .command c :: rest) :
    (decode c = .ok .commit ∧ u.resp = s.resp) ∨ (∃ i, decode c = .ok i ∧ i ≠ .commit ∧ u.resp = .ok) ∨
      ∃ e, decode c = .error e ∧ u.resp = .illegal := by
  obtain ⟨hport, -⟩ | ⟨_, hport, -⟩ | ⟨_, _, hport, -, ⟨i, hdec, hexec⟩ | ⟨e, hdec, rfl⟩⟩ := takeMove_next h <;>
    cases hhost.symm.trans hport
  · obtain ⟨hi, hok⟩ | ⟨rfl, hheld⟩ := exec_resp hexec
    · exact .inr (.inl ⟨i, hdec, hi, hok⟩)
    · exact .inl ⟨hdec, hheld⟩
  · exact .inr (.inr ⟨e, hdec, rfl⟩)

/-- Settles O58: the response of a busy block's step (`step_busy_resp`), and of an idle block's by what stands on its
port. -/
theorem responseHeld : Obligations.ResponseHeld := by
  refine ⟨rfl, rfl, fun s u h hbusy hnine => ?_, fun s u h hnine => ?_, fun s u h hidle hhost => ?_,
    fun s u rest h hidle hhost => ?_, fun s u c rest h hidle hhost => ?_⟩
  · rw [step_busy_resp h hbusy, if_neg hnine]
  · rw [step_busy_resp h (by simp [hnine]), if_pos hnine]
  · obtain rfl : s.envMove = u := by simpa [takeMove, hhost] using takeMove_of_step h hidle
    exact ⟨rfl, ⟨by simp, by simp⟩, hidle⟩
  · obtain rfl : s.envMove.takeHost.startReset = u := by simpa [takeMove, hhost] using takeMove_of_step h hidle
    rfl
  · have hresp := takeMove_command_resp (takeMove_of_step h hidle) hhost
    refine ⟨fun hdec => ?_, fun i hdec hi => ?_, fun e hdec => ?_⟩
    · simpa [hdec] using hresp
    · simpa [hdec, hi] using hresp
    · simpa [hdec] using hresp

end Sys2Proof.Machine
end

section
/-! A commit from the port that stops at its first overflowing edge (R125, R147, R166): what has been written by then,
and what has not. -/

namespace Sys2Proof.Machine

/-- A field that none of the transactions so far has written is what it was (R53). -/
theorem InCommit.field_kept {s u : State} {n : BitVec 4} {es : List WriteEvent} (h : InCommit s u n es)
    {a lo len : Nat} (hfits : lo + len ≤ 16) (howned : a ≠ s.cfg.dispcntAddr ∨ 13 ≤ lo)
    (hes : ∀ e ∈ es, e.addr = a → e.mask.extractLsb' lo len = 0) :
    (u.reg a).extractLsb' lo len = (s.reg a).extractLsb' lo len := by
  apply BitVec.eq_of_getLsbD_eq
  intro k hk
  have hmask : ∀ e ∈ es, e.addr = a → e.mask.getLsbD (lo + k) = false := fun e he ha => by
    simpa [hk] using congrArg (BitVec.getLsbD · k) (hes e he ha)
  have howned' : a ≠ u.cfg.dispcntAddr ∨ 13 ≤ lo + k := h.cfg.symm ▸ howned.imp_right fun hlo => by omega
  rw [BitVec.getLsbD_extractLsb', BitVec.getLsbD_extractLsb', h.regs.bits a (lo + k) (by omega) howned',
    foldl_onRegs_bit_kept (by omega) hmask]

/-- A window register to which no transaction so far has gone is what it was. -/
theorem InCommit.reg_kept {s u : State} {n : BitVec 4} {es : List WriteEvent} (h : InCommit s u n es) {a : Nat}
    (ha : a ≠ s.cfg.dispcntAddr) (hes : ∀ e ∈ es, e.addr ≠ a) : u.reg a = s.reg a := by
  have hfield := h.field_kept (lo := 0) (len := 16) le_rfl (.inl ha) fun e he haddr => absurd haddr (hes e he)
  rwa [BitVec.extractLsb'_eq_self, BitVec.extractLsb'_eq_self] at hfield

/-- A COMMIT with an overflowing edge, on the port of an idle block: the step that takes it, and the write steps before
the overflowing one. -/
theorem overflow_from_port {s : State} {c : Command} {rest : List HostMove} {m : Mov} {n : Nat}
    (hw : s.cfg.wellFormed = true) (hwf : s.mem.wf = true) (hidle : s.seq = 0) (hreset : s.wasReset = true)
    (hovf : s.cfg.edgeOvf = .fault) (hfirst : s.firstOverflow = some (m, n))
    (hhost : s.host = .command c :: rest) (hdec : decode c = .ok .commit) :
    n ∈ [2, 3, 5, 6] ∧ ∃ u, stepN n s = .next u ∧
      InCommit s.takeHost u (BitVec.ofNat 4 n) ((commitTrace s).take (n - 1)) ∧
      step u = .fault (.edgeOverflow m (BitVec.ofNat 4 n)) := by
  obtain ⟨hn, u, hu, hat, hfault⟩ := (InCommit.taken (s := s.takeHost) hwf).envMove.overflows hw hovf hfirst
  have hpos : ∀ n ∈ [2, 3, 5, 6], n = n - 1 + 1 := by decide
  refine ⟨hn, u, ?_, hat, hfault⟩
  rw [hpos n hn, stepN_of_next (step_takes_commit hw hidle hreset hhost hdec)]
  exact hu

theorem firstOverflow_of_right_edge {s : State} (h : 255 < (s.rect .win0).x.toNat + (s.rect .win0).w.toNat) :
    s.firstOverflow = some (.win0, 2) := if_pos h

/-- The registers a commit has not reached after its first write steps, in the order of R143: none of the first `j`
transactions goes there, or none to that byte. -/
theorem commitTrace_take_addr {s : State} (hw : s.cfg.wellFormed = true) :
    (∀ e ∈ (commitTrace s).take 1, e.addr ≠ s.cfg.winhBase) ∧
    (∀ e ∈ (commitTrace s).take 2, e.addr ≠ s.cfg.winvBase) ∧
    (∀ e ∈ (commitTrace s).take 2, e.addr = s.cfg.winctlBase → e.mask = 0x00FF) ∧
    (∀ e ∈ (commitTrace s).take 4, e.addr ≠ s.cfg.winhBase + 1) ∧
    (∀ e ∈ (commitTrace s).take 5, e.addr ≠ s.cfg.winvBase + 1) ∧
    (∀ e ∈ (commitTrace s).take 5, e.addr ≠ s.cfg.winctlBase + 1) ∧
    (∀ e ∈ (commitTrace s).take 5, e.addr ≠ s.cfg.dispcntAddr) := by
  obtain ⟨-, -, hnodup⟩ := s.cfg.wellFormed_iff.1 hw
  simp only [Config.indices, List.nodup_cons, List.mem_cons, not_or] at hnodup
  simp only [commitTrace, List.take_succ_cons, List.take_zero, List.forall_mem_cons]
  grind

/-- What a commit has not published after its first `k` write steps (R143, R166). -/
theorem InCommit.unpublished {s u : State} {n : BitVec 4} {k : Nat} (h : InCommit s u n ((commitTrace s).take k))
    (hw : s.cfg.wellFormed = true) :
    (k ≤ 1 → u.winh .win0 = s.winh .win0) ∧
    (k ≤ 2 → u.winv .win0 = s.winv .win0 ∧ u.winctlA.extractLsb' 8 8 = s.winctlA.extractLsb' 8 8) ∧
    (k ≤ 4 → u.winh .win1 = s.winh .win1) ∧
    (k ≤ 5 → u.winv .win1 = s.winv .win1 ∧ u.winctlB = s.winctlB ∧
      u.dispcnt.extractLsb' 13 3 = s.dispcnt.extractLsb' 13 3) := by
  have hwindow : ∀ a ∈ s.cfg.indices.dropLast, a ≠ s.cfg.dispcntAddr := fun a => ne_dispcntAddr_of_window hw
  simp only [Config.indices, List.dropLast_cons_cons, List.dropLast_singleton, List.forall_mem_cons] at hwindow
  obtain ⟨hdctlA, hdctlB, hdh0, hdh1, hdv0, hdv1, -⟩ := hwindow
  obtain ⟨hh0, hv0, hctlA, hh1, hv1, hctlB, hdispcnt⟩ := commitTrace_take_addr hw
  have hfirst {j : Nat} (hj : k ≤ j) {e : WriteEvent} (he : e ∈ (commitTrace s).take k) : e ∈ (commitTrace s).take j :=
    List.take_subset_take_left _ hj he
  simp only [State.winh, State.winv, State.winctlA, State.winctlB, State.dispcnt, h.cfg]
  refine ⟨fun hk => h.reg_kept hdh0 fun e he => hh0 e (hfirst hk he), fun hk => ⟨?_, ?_⟩,
    fun hk => h.reg_kept hdh1 fun e he => hh1 e (hfirst hk he), fun hk => ⟨?_, ?_, ?_⟩⟩
  · exact h.reg_kept hdv0 fun e he => hv0 e (hfirst hk he)
  · refine h.field_kept (by decide) (.inl hdctlA) fun e he haddr => ?_
    rw [hctlA e (hfirst hk he) haddr]
    rfl
  · exact h.reg_kept hdv1 fun e he => hv1 e (hfirst hk he)
  · exact h.reg_kept hdctlB fun e he => hctlB e (hfirst hk he)
  · exact h.field_kept (by decide) (.inr le_rfl) fun e he haddr => absurd haddr (hdispcnt e (hfirst hk he))

/-- From its first write step on, a commit has published the flag byte of slot 0 (R143). -/
theorem InCommit.flagByte_published {s u : State} {n : BitVec 4} {k : Nat} (h : InCommit s u n ((commitTrace s).take k))
    (hw : s.cfg.wellFormed = true) (hk : 1 ≤ k) : u.winctlA.extractLsb' 0 8 = s.wb .win0 := by
  have hfirst : ⟨s.cfg.winctlBase, 0x00FF, (s.wb .win0).setWidth 16⟩ ∈ (commitTrace s).take k :=
    List.take_subset_take_left _ hk List.mem_cons_self
  have hmask : ∀ i < 8, (0x00FF : Reg16).getLsbD i = true := by decide
  have hwindow := ne_dispcntAddr_of_window hw (a := s.cfg.winctlBase) (by simp [Config.indices])
  apply BitVec.eq_of_getLsbD_eq
  intro i hi
  have hwritten := foldl_onRegs_bit_written ((commitTrace_disjoint hw).sublist (List.take_sublist ..)) hfirst
    (show i < 16 by omega) (hmask i hi) s.reg
  rw [State.winctlA, h.cfg, BitVec.getLsbD_extractLsb', Nat.zero_add,
    h.regs.bits _ i (by omega) (.inl (h.cfg.symm ▸ hwindow)), hwritten]
  simp [hi]
  omega

/-- Settles O38: the run up to the overflowing step (`overflow_from_port`), and the registers there by the transactions
done. -/
theorem firstOverflowReported : Obligations.FirstOverflowReported := by
  intro s a0 a1 a2 a3 rest m n hw hwf hidle hreset hovf hfirst hhost
  obtain ⟨hn, u, hu, hat, hfault⟩ :=
    overflow_from_port hw hwf hidle hreset hovf hfirst hhost (decode_commit_word a0 a1 a2 a3)
  have hbounds : ∀ n ∈ [2, 3, 5, 6], 1 ≤ n - 1 ∧ n - 1 ≤ 5 := by decide
  obtain ⟨hlo, hhi⟩ := hbounds n hn
  obtain ⟨hwinh0, hslot0, hwinh1, hrest⟩ := InCommit.unpublished (s := s.takeHost) hat hw
  obtain ⟨hwinv1, hwinctlB, hdispcnt⟩ := hrest hhi
  have hregs : ∀ a k, k < 16 → (a ≠ s.cfg.dispcntAddr ∨ 13 ≤ k) →
      (u.reg a).getLsbD k = ((((commitTrace s).take (n - 1)).foldl State.busWrite s).reg a).getLsbD k := by
    intro a k hk howned
    rw [foldl_busWrite_reg hwf]
    exact hat.regs.bits a k hk (hat.cfg.symm ▸ howned)
  have hcache : KeepsCache s s.takeHost := ⟨s.takeHost_wb, s.takeHost_rect⟩
  refine ⟨u, hu, hat.seq, hcache.trans hat.keepsCache, hat.trace, hregs, ?_, fun h2 => hwinh0 (by omega),
    fun h3 => hslot0 (by omega), fun h5 => hwinh1 (by omega), hwinv1, hwinctlB, hdispcnt, hfault, fun hedge => ?_⟩
  · exact InCommit.flagByte_published (s := s.takeHost) hat hw hlo
  · rw [firstOverflow_of_right_edge hedge] at hfirst
    cases hfirst
    exact ⟨rfl, rfl⟩

end Sys2Proof.Machine
end

section
/-! The reset input (R180, R181, R183): a commit of the zero cache, and what stands on the port before the first
reset. -/

namespace Sys2Proof.Machine

/-- The reset input clears the cache to that of the reset state (R38, R180). -/
theorem State.startReset_cache (s : State) : KeepsCache .reset s.startReset :=
  ⟨fun t => (s.startReset_wb t).trans (State.reset_wb t).symm,
    fun m => (s.startReset_rect m).trans (State.reset_rect m).symm⟩

/-- The commit of a reset cannot fault: both rectangles are zero (R125). -/
theorem State.startReset_edgesOk (s : State) : s.startReset.edgesOk := .inr fun m => by simp [Rect.fits]

/-- The transactions of a commit of the cleared cache are those of R181. -/
theorem commitTrace_startReset (s : State) : commitTrace s.startReset = resetTrace s.cfg := by
  simp [commitTrace, resetTrace, State.en, edgeByte]

/-- The step that takes the reset input, by a block reset before or not. -/
theorem step_takes_reset {s : State} {rest : List HostMove} (hw : s.cfg.wellFormed = true) (hidle : s.seq = 0)
    (hhost : s.host = .reset :: rest) : step s = .next s.envMove.takeHost.startReset := by
  rw [step_idle hw hidle]
  simp only [takeMove, State.envMove_host, hhost]

/-- The reset input on the port of an idle block: the step that takes it, and the commit of the cleared cache. -/
theorem reset_from_port {s : State} {rest : List HostMove} (hw : s.cfg.wellFormed = true) (hwf : s.mem.wf = true)
    (hidle : s.seq = 0) (hhost : s.host = .reset :: rest) :
    ∃ u, stepN 10 s = .next u ∧ InCommit s.envMove.takeHost.startReset u 0 (resetTrace s.cfg) ∧ u.resp = .ok ∧
      KeepsCache .reset u ∧ Published .reset u := by
  have hstart := InCommit.start (s := s.envMove.takeHost.startReset) (State.envMove_mem_wf hwf) rfl
  obtain ⟨u, hu, hend, hresp⟩ := hstart.completes hw (State.startReset_edgesOk _)
  have hcache := s.envMove.takeHost.startReset_cache
  exact ⟨u, (stepN_of_next (step_takes_reset hw hidle hhost)).trans hu, commitTrace_startReset _ ▸ hend, hresp,
    hcache.trans hend.keepsCache, hcache.published (hend.published hw)⟩

/-- Settles O41: the run of `reset_from_port` publishes the zero cache of the reset state. -/
theorem resetInputRun : Obligations.ResetInputRun := by
  intro s rest hw hwf hidle hhost
  obtain ⟨u, hu, hend, hresp, hcache, hpublished⟩ := reset_from_port hw hwf hidle hhost
  refine ⟨u, hu, hend.wasReset, fun t => (hcache.wb t).trans (State.reset_wb t),
    fun m => (hcache.rect m).trans (State.reset_rect m), hend.seq, ?_, hcache.enStatus, hresp, ?_,
    hpublished.winctlA, hpublished.winctlB, fun m => ?_, fun m => ?_, hpublished.summary, hend.trace⟩
  · simp [State.busy, hend.seq]
  · simpa [hhost] using hend.host
  · rw [hpublished.winh, State.reset_rect]
    rfl
  · rw [hpublished.winv, State.reset_rect]
    rfl

/-- Settles O57: the idle block looks at its port, and without a first reset it takes no command. -/
theorem neverResetRefused : Obligations.NeverResetRefused := by
  intro s c rest hw hidle hreset hhost
  rw [step_idle hw hidle]
  simp only [takeMove, State.envMove_host, hhost, State.envMove_wasReset, hreset, Bool.false_eq_true, if_false]

end Sys2Proof.Machine
end
